-- ==== Sys2Proof/Word.lean ====
section
/-! DEFINITION. The word, byte and address types of the MM3BF engine (00_scope.md R8, R9, R11; 20_memory.md R70). -/

namespace Sys2Proof

/-- A register, a command word, a hash accumulator: 64 bits (R8). -/
abbrev Word := BitVec 64

/-- One key byte (R11). -/
abbrev Byte := BitVec 8

/-- A block-relative byte offset on the host bus (R8, R70). -/
abbrev Addr := BitVec 32

end Sys2Proof
end

