-- ==== Sys2Proof/Config.lean ====
section
/-! DEFINITION. The implementation parameters of the block (00_scope.md R6, R7; 92_eei_decisions.md "Open parameters")
and the free values: what the spec calls unspecified, as constants with no body. -/

namespace Sys2Proof

/-- The byte order of an integer key adapter (R6, R174, R175). -/
inductive ByteOrder where
  | big
  | little
  deriving DecidableEq, Repr

/-- The implementation parameters (R6, R71). A `Config` is a field of the machine's state that no step changes, so a
statement about every state is a statement about every configuration. -/
structure Config where
  /-- `KEYCAP`: the key buffer's capacity in bytes. -/
  keycap : Nat
  /-- `KMAX`: the number of index buffer entries. -/
  kmax : Nat
  /-- `BITCAP`: the bit-array storage's capacity in bits. -/
  bitcap : Nat
  /-- `INT32_ORDER`. -/
  int32Order : ByteOrder
  /-- `INT64_ORDER`. -/
  int64Order : ByteOrder
  /-- `TAIL_SIGN_EXTEND`. -/
  tailSignExtend : Bool
  /-- `BLOCK_BASE`: where the platform maps the block in the host's address space (R71, D3). -/
  blockBase : Word
  deriving DecidableEq, Repr

/-- `KEYWORDS = KEYCAP / 8` (R6). -/
def Config.keywords (c : Config) : Nat := c.keycap / 8

/-- `BITWORDS = BITCAP / 64` (R6). -/
def Config.bitwords (c : Config) : Nat := c.bitcap / 64

/-- The reference configuration (R7). The spec gives `BLOCK_BASE` no value; 0 is this model's (DESIGN CHOICE, log entry 2). -/
def Config.reference : Config where
  keycap := 4096
  kmax := 64
  bitcap := 33554432
  int32Order := .big
  int64Order := .big
  tailSignExtend := false
  blockBase := 0

/-- FREE VALUE. What byte `a` of a storage array holds when nothing has written it since the reset that drew number `d`
(R292, R299; log entry 4). -/
opaque Config.freeByte : Nat → Nat → Byte

/-- FREE VALUE. The `i`-th 64-bit value of draw `d`: a busy read of an output (R93), `PROBES` after an abort and `IDX`
after an exhausted or aborted generation (R266, R268; log entry 5). -/
opaque Config.freeWord : Nat → Nat → Word

/-- FREE VALUE. Whether the engine takes its abort step rather than its completion step when both are enabled and the
schedule does not say (R266; log entry 6). -/
opaque Config.freePick : Nat → Bool

end Sys2Proof
end

