-- ==== Sys2Proof/Syntax.lean ====
section
/-! DEFINITION. The syntax: the 16 commands of 30_encoding.md R104, the key shapes of R102, and the names of the reasons
for which R110 calls a command word illegal. -/

namespace Sys2Proof

/-- How a keyed command gets its key bytes (R102). -/
inductive Shape where
  | bytes
  | u32
  | u64
  deriving DecidableEq, Repr

/-- The legal commands, one constructor per row of the opcode table (R104). A command word carries no operand (R109). -/
inductive Instr where
  | nop
  | hashBytes
  | hashU32
  | hashU64
  | indexBytes
  | indexU32
  | indexU64
  | addBytes
  | addU32
  | addU64
  | testBytes
  | testU32
  | testU64
  | clear
  | popcnt
  | abort
  deriving DecidableEq, Repr

/-- Why `decode` rejects a command word (R110). -/
inductive Illegal where
  /-- A bit of `RSV = cur[63:10]` is set (R103). -/
  | reservedBits
  /-- `OP` is none of 0x00 to 0x06 and 0x0F (R101). -/
  | unassignedOp
  /-- A keyed `OP` with `SHAPE = 3` (R102). -/
  | shapeThree
  /-- A keyless `OP` with `SHAPE ≠ 0` (R102). -/
  | shapeOnKeyless
  deriving DecidableEq, Repr

end Sys2Proof
end

