-- ==== Sys2Proof/WellFormed.lean ====
section
/-! DEFINITION. Well-formedness: of a configuration (00_scope.md R6) and of a command (30_encoding.md R104, R109). -/

namespace Sys2Proof

/-- `KEYCAP` is a multiple of 8 with 16 ≤ KEYCAP ≤ 65536 (R6). -/
def Config.keycapLegal (c : Config) : Bool := c.keycap % 8 == 0 && decide (16 ≤ c.keycap) && decide (c.keycap ≤ 65536)

/-- 1 ≤ KMAX ≤ 256 (R6). -/
def Config.kmaxLegal (c : Config) : Bool := decide (1 ≤ c.kmax) && decide (c.kmax ≤ 256)

/-- `BITCAP` is a multiple of 64 with 64 ≤ BITCAP ≤ 2^34 (R6). -/
def Config.bitcapLegal (c : Config) : Bool := c.bitcap % 64 == 0 && decide (64 ≤ c.bitcap) && decide (c.bitcap ≤ 17179869184)

/-- The parameters lie in the ranges of R6. The two byte orders, `TAIL_SIGN_EXTEND` and `BLOCK_BASE` are legal at every value. -/
def Config.legal (c : Config) : Bool := c.keycapLegal && c.kmaxLegal && c.bitcapLegal

/-- A command is well formed. A command word has no operand field (R109: "The command word carries no immediate and no
register number"), so no term of `Instr` is ill formed; what can be ill formed is a WORD, which `decode` rejects by name. -/
def Instr.wellFormed : Instr → Bool
  | .nop | .hashBytes | .hashU32 | .hashU64 | .indexBytes | .indexU32 | .indexU64 | .addBytes | .addU32 | .addU64
  | .testBytes | .testU32 | .testU64 | .clear | .popcnt | .abort => true

end Sys2Proof
end

