-- ==== Sys2Proof/Decode.lean ====
section
/-! DEFINITION. Decoding and encoding of command words (30_encoding.md R100 to R105, R110). -/

namespace Sys2Proof

/-- `OP = cur[7:0]` (R101). -/
def opField (w : Word) : BitVec 8 := w.extractLsb' 0 8

/-- `SHAPE = cur[9:8]` (R102). -/
def shapeField (w : Word) : BitVec 2 := w.extractLsb' 8 2

/-- `RSV = cur[63:10]` (R103). -/
def rsvField (w : Word) : BitVec 54 := w.extractLsb' 10 54

/-- A keyed operation with its three forms, by `SHAPE` (R102). -/
def decodeKeyed (bytes u32 u64 : Instr) (sh : BitVec 2) : Except Illegal Instr :=
  if sh = 0#2 then .ok bytes
  else if sh = 1#2 then .ok u32
  else if sh = 2#2 then .ok u64
  else .error .shapeThree

/-- A keyless operation: `SHAPE` must be 0 (R102). -/
def decodeKeyless (i : Instr) (sh : BitVec 2) : Except Illegal Instr :=
  if sh = 0#2 then .ok i else .error .shapeOnKeyless

/-- `decode` of R105: total on all words, rejecting by name. -/
def decode (w : Word) : Except Illegal Instr :=
  if rsvField w ≠ 0#54 then .error .reservedBits
  else if opField w = 0x00#8 then decodeKeyless .nop (shapeField w)
  else if opField w = 0x01#8 then decodeKeyed .hashBytes .hashU32 .hashU64 (shapeField w)
  else if opField w = 0x02#8 then decodeKeyed .indexBytes .indexU32 .indexU64 (shapeField w)
  else if opField w = 0x03#8 then decodeKeyed .addBytes .addU32 .addU64 (shapeField w)
  else if opField w = 0x04#8 then decodeKeyed .testBytes .testU32 .testU64 (shapeField w)
  else if opField w = 0x05#8 then decodeKeyless .clear (shapeField w)
  else if opField w = 0x06#8 then decodeKeyless .popcnt (shapeField w)
  else if opField w = 0x0F#8 then decodeKeyless .abort (shapeField w)
  else .error .unassignedOp

/-- The command word of each command (R104). -/
def encode : Instr → Word
  | .nop => 0x000#64
  | .hashBytes => 0x001#64
  | .hashU32 => 0x101#64
  | .hashU64 => 0x201#64
  | .indexBytes => 0x002#64
  | .indexU32 => 0x102#64
  | .indexU64 => 0x202#64
  | .addBytes => 0x003#64
  | .addU32 => 0x103#64
  | .addU64 => 0x203#64
  | .testBytes => 0x004#64
  | .testU32 => 0x104#64
  | .testU64 => 0x204#64
  | .clear => 0x005#64
  | .popcnt => 0x006#64
  | .abort => 0x00F#64

/-- The exact `ABORT` word, which never reaches `decode`: it acts when it is written (R105, R139, R140). -/
def abortWord : Word := encode .abort

/-- The command the decoder reads from a table row's bits. Every command is one 64-bit word (R112), so the bits above
`nbits` are 0 and the word is the whole instruction. -/
def decodeTableWord (nbits w : Nat) : Option Instr :=
  match decode (BitVec.ofNat 64 (w % 2 ^ nbits)) with
  | .ok i => some i
  | .error _ => none

end Sys2Proof
end

