-- ==== Sys2Proof/Machine/State.lean ====
section
/-! DEFINITION. The machine's state as plain data (10_state.md R30 to R56), the three agents' moves (00_scope.md R5), the
reasons a step can stop, and the state after reset (70_reset_and_hazards.md R290, R292, R293). -/

namespace Sys2Proof.Machine

/-- No step of this machine faults: the block "has no trap mechanism" (R260) and reports each error in `STATUS` at the end
of a command; a misaligned or unmapped access has the effect R74 and R75 give it. So there is no fault to name. -/
inductive Fault where
  deriving DecidableEq, Repr

/-- Why a command has no meaning here. -/
inductive Refusal where
  /-- Raised by `exec`'s refused arms, for a command not modelled yet. Safe: the machine stops. No arm raises it now. -/
  | notModelled (mnemonic : String)
  deriving DecidableEq, Repr

/-- The errors that end a command (R261). -/
inductive Error where
  | invalidParameter
  | hashExhausted
  | illegalCommand
  | aborted
  deriving DecidableEq, Repr

/-- The fields of `STATUS` (R32). The reserved bits read 0 and ignore writes, so they need no storage. -/
structure Status where
  busy : Bool
  done : Bool
  err : Bool
  werr : Bool
  aerr : Bool
  errcode : BitVec 8
  deriving DecidableEq, Repr

/-- The fields of `INTEN` (R40). The reserved bits read 0 and ignore writes. -/
structure Inten where
  doneie : Bool
  errie : Bool
  hosterrie : Bool
  deriving DecidableEq, Repr

/-- What the bytes of a storage array hold where no byte is listed: the free draw number `draw` made at reset
(R292), or zero (after `CLEAR`, R241). -/
inductive Fill where
  | free (draw : Nat)
  | zero
  deriving DecidableEq, Repr

/-- A storage array as bytes: the listed cells, and what every other byte holds. -/
structure Memory where
  fill : Fill
  cells : List Host.Cell
  deriving DecidableEq, Repr

/-- The 17 registers by name (R30). -/
inductive Reg where
  | id
  | status
  | cmd
  | inten
  | seed
  | k
  | m
  | plim
  | keylen
  | keyval
  | h1
  | h2
  | result
  | probes
  | capKey
  | capK
  | capBits
  deriving DecidableEq, Repr

/-- Where a bus offset falls in the address map (R71). -/
inductive Region where
  | reg (r : Reg)
  | idx (i : Nat)
  | keybuf (j : Nat)
  | bits (w : Nat)
  | unmapped
  deriving DecidableEq, Repr

/-- One move of one of the three agents (R5). The agents step in any interleaving; the order is data in the state. -/
inductive Turn where
  /-- Host: `MemRead(addr, 8)` (R73). -/
  | read (addr : Addr)
  /-- Host: `MemWrite(addr, 8, v)` (R73). -/
  | write (addr : Addr) (v : Word)
  /-- Host: the `wait` pseudo-instruction, polling `STATUS` until `BUSY = 0` (R121). -/
  | wait
  /-- Engine: it takes a step that is enabled; `abortFirst` says which when the abort step and the completion step both
  are (R130, R266). -/
  | engine (abortFirst : Bool)
  /-- Reset: the reset input is asserted (R290). -/
  | reset
  deriving DecidableEq, Repr

/-- The machine's state. `idx`, `keybuf` and `bits` are bytes in the order their windows show (R79, R80, R82). -/
structure State where
  /-- The implementation parameters (R6); no step changes them. -/
  cfg : Config
  /-- `STATUS` (R32 to R38). -/
  status : Status
  /-- `LASTCMD` (R39), which is also the hidden `cur` (R55: "the same value as `LASTCMD`"). -/
  lastcmd : Word
  /-- `INTEN` (R40). -/
  inten : Inten
  /-- `SEED` (R41). -/
  seed : Word
  /-- `K` (R42). -/
  k : Word
  /-- `M` (R43). -/
  m : Word
  /-- `PLIM` (R44). -/
  plim : Word
  /-- `KEYLEN` (R45). -/
  keylen : Word
  /-- `KEYVAL` (R46). -/
  keyval : Word
  /-- `H1` (R47). -/
  h1 : Word
  /-- `H2` (R47). -/
  h2 : Word
  /-- `RESULT` (R48). -/
  result : Word
  /-- `PROBES` (R49). -/
  probes : Word
  /-- `IDX` (R51): entry `i` is bytes `8i` to `8i+7`. -/
  idx : Memory
  /-- `KEYBUF` (R52). -/
  keybuf : Memory
  /-- `BIT` (R53): bit `i` is bit `i mod 8` of byte `i div 8`. -/
  bits : Memory
  /-- `abort_req` (R55). -/
  abortReq : Bool
  /-- The MODEL's own: the word the host's latest read returned (R73). -/
  rdata : Word
  /-- The MODEL's own: how many free values have been drawn. -/
  draws : Nat
  /-- The MODEL's own: the moves to come, in order (R5, R85). -/
  agenda : List Turn
  deriving DecidableEq, Repr

/-- `cur`, the command word that started the running command (R55). -/
def State.cur (s : State) : Word := s.lastcmd

/-- `STATUS` after reset: idle, no flags (R290). -/
def Status.reset : Status where
  busy := false
  done := false
  err := false
  werr := false
  aerr := false
  errcode := 0

/-- `INTEN` after reset: every source masked (R40). -/
def Inten.reset : Inten where
  doneie := false
  errie := false
  hosterrie := false

/-- The machine right after its first reset, in the reference configuration (R7, R290, R292, R293): the registers at their
reset values, the three arrays at free draws 0, 1 and 2. `rdata`, `draws` and `agenda` are the model's own (DESIGN CHOICE, log
entry 3). -/
def State.reset : State where
  cfg := Config.reference
  status := Status.reset
  lastcmd := 0
  inten := Inten.reset
  seed := 0
  k := 0
  m := 0
  plim := 0
  keylen := 0
  keyval := 0
  h1 := 0
  h2 := 0
  result := 0
  probes := 0
  idx := { fill := .free 0, cells := [] }
  keybuf := { fill := .free 1, cells := [] }
  bits := { fill := .free 2, cells := [] }
  abortReq := false
  rdata := 0
  draws := 3
  agenda := []

end Sys2Proof.Machine
end

