-- ==== Sys2Proof/Machine/Ops.lean ====
section
/-! DEFINITION. The named operations over the storage arrays and over the command's lifecycle: start (R131), `complete()`
(R134), `raise E`, which is how this block takes an exception (R135, R262), the dropped write (R92) and reset (R290).
There is no return from an exception: "No return instruction exists, because no handler runs" (R269). -/

namespace Sys2Proof.Machine

/-! ### Storage arrays -/

/-- What a byte nothing has listed holds (R292; zero after `CLEAR`, R241). -/
def Fill.byte : Fill → Nat → Byte
  | .free d, a => Config.freeByte d a
  | .zero, _ => 0

/-- The byte listed at an address. -/
def lookupCell (a : Nat) : List Host.Cell → Option Byte
  | [] => none
  | c :: r => if c.1 = a then some c.2 else lookupCell a r

/-- List a byte, keeping the addresses rising. -/
def insertCell (a : Nat) (b : Byte) : List Host.Cell → List Host.Cell
  | [] => [(a, b)]
  | c :: r =>
    if a < c.1 then (a, b) :: c :: r
    else if a = c.1 then (a, b) :: r
    else c :: insertCell a b r

/-- Unlist a byte, wherever it is listed. -/
def eraseCell (a : Nat) : List Host.Cell → List Host.Cell
  | [] => []
  | c :: r => if c.1 = a then eraseCell a r else c :: eraseCell a r

/-- Byte `a` of an array. -/
def Memory.byte (m : Memory) (a : Nat) : Byte :=
  match lookupCell a m.cells with
  | some b => b
  | none => m.fill.byte a

/-- Write byte `a`. Over a zero fill a zero byte is unlisted; over a free fill every written byte is listed (log entry 4). -/
def Memory.setByte (m : Memory) (a : Nat) (b : Byte) : Memory :=
  match m.fill with
  | .zero => { m with cells := if b = 0#8 then eraseCell a m.cells else insertCell a b m.cells }
  | .free _ => { m with cells := insertCell a b m.cells }

/-- The 64-bit word `w` of an array: bytes `8w` to `8w+7`, little-endian (R79, R80). -/
def Memory.word (m : Memory) (w : Nat) : Word :=
  m.byte (8 * w + 7) ++ m.byte (8 * w + 6) ++ m.byte (8 * w + 5) ++ m.byte (8 * w + 4) ++
    m.byte (8 * w + 3) ++ m.byte (8 * w + 2) ++ m.byte (8 * w + 1) ++ m.byte (8 * w)

/-- Byte `b` of a word: bits `[8b+7 : 8b]` (R79). -/
def byteOf (v : Word) (b : Nat) : Byte := v.extractLsb' (8 * b) 8

/-- Write word `w`, byte by byte (R79, R80). -/
def Memory.setWord (m : Memory) (w : Nat) (v : Word) : Memory :=
  (List.range 8).foldl (fun n b => n.setByte (8 * w + b) (byteOf v b)) m

/-- Bit `i` of an array (R53, R230). -/
def Memory.bit (m : Memory) (i : Nat) : Bool := (m.byte (i / 8)).getLsbD (i % 8)

/-- `BIT[i] <- 1` (R236). -/
def Memory.setBit (m : Memory) (i : Nat) : Memory :=
  m.setByte (i / 8) (m.byte (i / 8) ||| (1#8 <<< (i % 8)))

/-- Every bit 0 (R241). -/
def Memory.zeroed : Memory := { fill := .zero, cells := [] }

/-- The listed addresses strictly rise from `lo`. -/
def cellsRise (lo : Nat) : List Host.Cell → Bool
  | [] => true
  | c :: r => decide (lo ≤ c.1) && cellsRise (c.1 + 1) r

/-- Every listed address is below the array's size. -/
def cellsBelow (size : Nat) : List Host.Cell → Bool
  | [] => true
  | c :: r => decide (c.1 < size) && cellsBelow size r

/-- No listed byte is zero. -/
def cellsNonzero : List Host.Cell → Bool
  | [] => true
  | c :: r => c.2 != 0#8 && cellsNonzero r

/-- The canonical form of an array of `size` bytes: addresses strictly rising and in the array, and over a zero fill no entry
equal to what an unlisted address reads as. -/
def Memory.wf (size : Nat) (m : Memory) : Bool :=
  cellsRise 0 m.cells && cellsBelow size m.cells &&
    match m.fill with
    | .zero => cellsNonzero m.cells
    | .free _ => true

/-- The array's fill was drawn before draw number `d`. -/
def Memory.drawnBefore (d : Nat) (m : Memory) : Bool :=
  match m.fill with
  | .zero => true
  | .free n => decide (n < d)

/-! ### The command's lifecycle -/

/-- The codes of `STATUS.ERRCODE` (R261). -/
def Error.code : Error → BitVec 8
  | .invalidParameter => 1
  | .hashExhausted => 2
  | .illegalCommand => 3
  | .aborted => 4

/-- The start step of a command word (R131). -/
def startCommand (v : Word) (s : State) : State :=
  { s with
    lastcmd := v
    abortReq := false
    status := { s.status with busy := true, done := false, err := false, errcode := 0 } }

/-- `complete()`: end the command without error (R134). -/
def complete (s : State) : State :=
  { s with status := { s.status with busy := false, done := true }, abortReq := false }

/-- `raise E`: end the command with an error (R135, R262). The writes made before it are those already in `s`. -/
def raise (e : Error) (s : State) : State :=
  { s with
    status := { s.status with busy := false, done := true, err := true, errcode := e.code }
    abortReq := false }

/-- A host write ignored because the engine is busy (R36, R92). -/
def dropWrite (s : State) : State := { s with status := { s.status with werr := true } }

/-- A host access not performed because it is misaligned (R37, R74). -/
def flagMisaligned (s : State) : State := { s with status := { s.status with aerr := true } }

/-- The reset step (R290 to R292): every register at its reset value, the running command abandoned, the three arrays at
fresh free draws. The parameters are constants; the read data and the moves to come are the host's. -/
def resetStep (s : State) : State :=
  { State.reset with
    cfg := s.cfg
    idx := { fill := .free s.draws, cells := [] }
    keybuf := { fill := .free (s.draws + 1), cells := [] }
    bits := { fill := .free (s.draws + 2), cells := [] }
    rdata := s.rdata
    draws := s.draws + 3
    agenda := s.agenda }

/-! ### Outputs of the engine -/

/-- `IDX[i] <- L[i]` for the entries of `L`, from entry `i` on (R207). -/
def storeIndices (m : Memory) (i : Nat) : List Nat → Memory
  | [] => m
  | c :: r => storeIndices (m.setWord i (BitVec.ofNat 64 c)) (i + 1) r

/-- `IDX[i] <- unspecified` for `i < n`, from draw number `d` (R207, R266, R268). -/
def scrambleIndices (m : Memory) (d : Nat) : Nat → Memory
  | 0 => m
  | n + 1 => (scrambleIndices m d n).setWord n (Config.freeWord d n)

/-- `BIT[i] <- 1` for every index of a list (R236). -/
def setBits (m : Memory) (L : List Nat) : Memory := L.foldl Memory.setBit m

/-- The number of `i` in `[0, n)` with `BIT[i] = 1` (R246). -/
def countBits (m : Memory) (n : Nat) : Nat := (List.range n).countP fun i => m.bit i

/-- The mask `valid(w)` of the bit-array window: bit `b` is 1 exactly when `64w + b < L` (R80). -/
def validMask (L w : Nat) : Word := BitVec.ofNat 64 (2 ^ min 64 (L - 64 * w) - 1)

/-- `L = min(R.M, BITCAP)` (R80). -/
def visibleBits (s : State) : Nat := min s.m.toNat s.cfg.bitcap

end Sys2Proof.Machine
end

