-- ==== Sys2Proof/Machine/Control.lean ====
section
/-! DEFINITION. The two commands that compute nothing, `NOP` and `ABORT` (40_command_lifecycle.md R138 to R140). -/

namespace Sys2Proof.Machine

/-- `NOP`: `complete()` (R138). -/
def execNop (s : State) : Host.Outcome State Fault Refusal := .next (complete s)

/-- `ABORT`, performed by the host's write: while busy it requests an abort (R139), while idle it is ignored (R140). -/
def execAbort (s : State) : Host.Outcome State Fault Refusal :=
  .next (if s.status.busy then { s with abortReq := true } else s)

end Sys2Proof.Machine
end

