-- ==== Sys2Proof/Machine/Operands.lean ====
section
/-! DEFINITION. Operand assembly: the key adapters (30_encoding.md R106 to R108; 41_mixhash.md R173 to R175) and the
checks of the operand registers (43_filter_ops.md R231; 60_exceptions.md R264). -/

namespace Sys2Proof.Machine

/-- `U32Bytes(v)` (R174). -/
def u32Bytes (order : ByteOrder) (v : BitVec 32) : List Byte :=
  match order with
  | .big => [v.extractLsb' 24 8, v.extractLsb' 16 8, v.extractLsb' 8 8, v.extractLsb' 0 8]
  | .little => [v.extractLsb' 0 8, v.extractLsb' 8 8, v.extractLsb' 16 8, v.extractLsb' 24 8]

/-- `U64Bytes(v)` (R175). -/
def u64Bytes (order : ByteOrder) (v : Word) : List Byte :=
  match order with
  | .big => [byteOf v 7, byteOf v 6, byteOf v 5, byteOf v 4, byteOf v 3, byteOf v 2, byteOf v 1, byteOf v 0]
  | .little => [byteOf v 0, byteOf v 1, byteOf v 2, byteOf v 3, byteOf v 4, byteOf v 5, byteOf v 6, byteOf v 7]

/-- `KEYBUF[0 .. n)` (R52, R106). -/
def keybufBytes (n : Nat) (s : State) : List Byte := (List.range n).map fun j => s.keybuf.byte j

/-- `KeyBytes(shape)`: the key a keyed command hashes (R173). -/
def keyBytes (shape : Shape) (s : State) : List Byte :=
  match shape with
  | .bytes => keybufBytes s.keylen.toNat s
  | .u32 => u32Bytes s.cfg.int32Order (s.keyval.extractLsb' 0 32)
  | .u64 => u64Bytes s.cfg.int64Order s.keyval

/-- For shape `BYTES`, `KEYLEN ≤ KEYCAP`, unsigned on all 64 bits (R264). -/
def keylenOK (shape : Shape) (s : State) : Bool :=
  match shape with
  | .bytes => decide (s.keylen.toNat ≤ s.cfg.keycap)
  | .u32 | .u64 => true

/-- `1 ≤ K ≤ KMAX` (R264). -/
def kOK (s : State) : Bool := decide (1 ≤ s.k.toNat) && decide (s.k.toNat ≤ s.cfg.kmax)

/-- `8 ≤ M ≤ BITCAP` (R264). -/
def mOK (s : State) : Bool := decide (8 ≤ s.m.toNat) && decide (s.m.toNat ≤ s.cfg.bitcap)

/-- `FilterOK(shape)` (R231). -/
def filterOK (shape : Shape) (s : State) : Bool := kOK s && mOK s && keylenOK shape s

/-- The shape of a command that generates indices: `INDEX`, `ADD` and `TEST` (R266). -/
def generatingShape : Instr → Option Shape
  | .indexBytes | .addBytes | .testBytes => some .bytes
  | .indexU32 | .addU32 | .testU32 => some .u32
  | .indexU64 | .addU64 | .testU64 => some .u64
  | .nop | .hashBytes | .hashU32 | .hashU64 | .clear | .popcnt | .abort => none

end Sys2Proof.Machine
end

