-- ==== Sys2Proof/Machine/Hash.lean ====
section
/-! DEFINITION. The hash unit: `establish` and the `HASH` commands (41_mixhash.md R160 to R177). -/

namespace Sys2Proof.Machine

/-- `rotl64(x, r)` for `1 ≤ r ≤ 63` (R10). -/
def rotl64 (x : Word) (r : Nat) : Word := (x <<< r) ||| (x >>> (64 - r))

/-- `C1` (R160). -/
def hashC1 : Word := 0x87c37b91114253d5#64

/-- `C2` (R160). -/
def hashC2 : Word := 0x4cf5ad432745937f#64

/-- `mix1` (R161). -/
def mix1 (x : Word) : Word := rotl64 (x * hashC1) 31 * hashC2

/-- `mix2` (R162). -/
def mix2 (x : Word) : Word := rotl64 (x * hashC2) 33 * hashC1

/-- `HashState` (R54): the accumulators and the byte-length counter. It exists only while one command runs `establish`,
inside its one atomic completion step (R133, R172), so no state between two steps holds it. -/
structure HashState where
  h1 : Word
  h2 : Word
  len : Word
  deriving DecidableEq, Repr

/-- The block step, part one (R164). -/
def blockPartOne (k1 : Word) (x : HashState) : HashState :=
  { x with h1 := (rotl64 (x.h1 ^^^ mix1 k1) 27 + x.h2) * 5#64 + 0x52dce729#64 }

/-- The block step, part two, after part one (R165). -/
def blockPartTwo (k2 : Word) (x : HashState) : HashState :=
  { x with h2 := (rotl64 (x.h2 ^^^ mix2 k2) 31 + x.h1) * 5#64 + 0x38495ab5#64 }

/-- `B[j]`, for `j` below the length (R11). -/
def byteAt (B : List Byte) (j : Nat) : Byte := B.getD j 0#8

/-- `LE64(B, j)` (R11). -/
def le64 (B : List Byte) (j : Nat) : Word :=
  byteAt B (j + 7) ++ byteAt B (j + 6) ++ byteAt B (j + 5) ++ byteAt B (j + 4) ++
    byteAt B (j + 3) ++ byteAt B (j + 2) ++ byteAt B (j + 1) ++ byteAt B j

/-- Both parts of the block step for chunk `i` of the key (R163 to R165). -/
def blockStep (B : List Byte) (x : HashState) (i : Nat) : HashState :=
  blockPartTwo (le64 B (16 * i + 8)) (blockPartOne (le64 B (16 * i)) x)

/-- The tail byte value `tb(b)` (R166). -/
def tailByte (signExtend : Bool) (b : Byte) : Word :=
  if signExtend then b.signExtend 64 else b.setWidth 64

/-- One round of tail assembly: tail byte `j` into `(k1, k2)` (R167). -/
def tailRound (signExtend : Bool) (B : List Byte) (base : Nat) (k : Word × Word) (j : Nat) : Word × Word :=
  let t := tailByte signExtend (byteAt B (base + j))
  if j < 8 then (k.1 ^^^ (t <<< (8 * j)), k.2) else (k.1, k.2 ^^^ (t <<< (8 * (j - 8))))

/-- Tail assembly: the words `(k1, k2)` of the last `n mod 16` bytes (R167). -/
def tailWords (signExtend : Bool) (B : List Byte) : Word × Word :=
  (List.range (B.length % 16)).foldl (tailRound signExtend B (16 * (B.length / 16))) (0#64, 0#64)

/-- Tail mixing: nothing when the tail is empty (R168). -/
def mixTail (signExtend : Bool) (B : List Byte) (x : HashState) : HashState :=
  if B.length % 16 = 0 then x
  else { x with h1 := x.h1 ^^^ mix1 (tailWords signExtend B).1, h2 := x.h2 ^^^ mix2 (tailWords signExtend B).2 }

/-- One xor-shift of the finalizer (R169). -/
def xorShift33 (x : Word) : Word := x ^^^ (x >>> 33)

/-- `fmix64` (R169; 90_conflicts.md C4). -/
def fmix64 (x : Word) : Word :=
  xorShift33 (xorShift33 (xorShift33 x * 0xff51afd7ed558ccd#64) * 0xc4ceb9fe1a85ec53#64)

/-- The finalization lines: xor the length in, then `h1 += h2; h2 += h1; fmix; h1 += h2; h2 += h1` (R170). -/
def finalizeHash (x : HashState) : Word × Word :=
  let a1 := (x.h1 ^^^ x.len) + (x.h2 ^^^ x.len)
  let a2 := (x.h2 ^^^ x.len) + a1
  let b1 := fmix64 a1 + fmix64 a2
  (b1, fmix64 a2 + b1)

/-- `establish(B, seed)` (R170), with the setting of `TAIL_SIGN_EXTEND`. -/
def establish (signExtend : Bool) (B : List Byte) (seed : Word) : Word × Word :=
  let start : HashState := { h1 := seed, h2 := seed, len := BitVec.ofNat 64 B.length }
  finalizeHash (mixTail signExtend B ((List.range (B.length / 16)).foldl (blockStep B) start))

/-- The digest of the key of a shape: `establish(KeyBytes(shape), R.SEED)` (R173, R200). -/
def digest (shape : Shape) (s : State) : Word × Word :=
  establish s.cfg.tailSignExtend (keyBytes shape s) s.seed

/-- `R.H1 <- h1; R.H2 <- h2` (R177). -/
def writeDigest (d : Word × Word) (s : State) : State := { s with h1 := d.1, h2 := d.2 }

/-- `HASH.<shape>` (R177). -/
def hashCommand (shape : Shape) (s : State) : State :=
  if keylenOK shape s then complete (writeDigest (digest shape s) s) else raise .invalidParameter s

/-- `HASH.BYTES` (R177). -/
def execHashBytes (s : State) : Host.Outcome State Fault Refusal := .next (hashCommand .bytes s)

/-- `HASH.U32` (R177). -/
def execHashU32 (s : State) : Host.Outcome State Fault Refusal := .next (hashCommand .u32 s)

/-- `HASH.U64` (R177). -/
def execHashU64 (s : State) : Host.Outcome State Fault Refusal := .next (hashCommand .u64 s)

end Sys2Proof.Machine
end

