-- ==== Sys2Proof/Machine/Index.lean ====
section
/-! DEFINITION. Index generation by double hashing and the `INDEX` commands (42_index_generation.md R200 to R207). -/

namespace Sys2Proof.Machine

/-- What a generation returns (R201): `OK(L, probes)`, `EXHAUSTED(probes)`, or that it never returns (R205). -/
inductive Generation where
  | ok (L : List Nat) (probes : Word)
  | exhausted (probes : Word)
  | never
  deriving DecidableEq, Repr

/-- `MASK63` (R10). -/
def mask63 : Word := 0x7FFFFFFFFFFFFFFF#64

/-- The candidate of a word: `(h & MASK63) mod m`, unsigned (R202). -/
def candidate (m : Nat) (h : Word) : Nat := (h &&& mask63).toNat % m

/-- Append a candidate unless it was accepted before in this generation (R203). -/
def accept (L : List Nat) (c : Nat) : List Nat := if c ∈ L then L else L ++ [c]

/-- The loop of R201, line by line, for at most `fuel` passes: `.never` says that it has not returned by then. -/
def hashesLoop (h2 : Word) (k m : Nat) (plim : Word) : Nat → Word → Word → List Nat → Generation
  | 0, _, _, _ => .never
  | fuel + 1, h, probes, L =>
    if k ≤ L.length then .ok L probes
    else if plim ≠ 0#64 ∧ probes = plim then .exhausted probes
    else hashesLoop h2 k m plim fuel (h + h2) (probes + 1#64) (accept L (candidate m h))

/-- How many distinct candidates the whole sequence of R201 holds. With `g = gcd(h2, 2^63)` the masked words are the
`2^63 / g` numbers below `2^63` that agree with `h1` modulo `g`, and a step of `g` has period `m / gcd(g, m)` modulo `m`
(DEDUCED from R201 and R202, log entry 8). -/
def distinctCandidates (h2 : Word) (m : Nat) : Nat :=
  min (2 ^ 63 / Nat.gcd h2.toNat (2 ^ 63)) (m / Nat.gcd (Nat.gcd h2.toNat (2 ^ 63)) m)

/-- `hashes(h1, h2, k, m, plim)` (R201). Where the sequence holds `k` distinct candidates, the loop itself, which the `2^64`
values of the running word bound. Where it does not: the probe limit ends it after `plim` probes (R204), and with no limit
it never ends (R205). -/
def hashes (h1 h2 : Word) (k m : Nat) (plim : Word) : Generation :=
  if k ≤ distinctCandidates h2 m then hashesLoop h2 k m plim (2 ^ 64 + 1) h1 0#64 []
  else if plim = 0#64 then .never
  else .exhausted plim

/-- The generation a keyed filter command runs on its key (R200). -/
def generation (shape : Shape) (s : State) : Generation :=
  hashes (digest shape s).1 (digest shape s).2 s.k.toNat s.m.toNat s.plim

/-- `IDX[i] <- L[i]` and `R.PROBES <- p` (R207, R232). -/
def writeIndices (L : List Nat) (p : Word) (s : State) : State :=
  { s with idx := storeIndices s.idx 0 L, probes := p }

/-- `R.PROBES <- p` and `IDX[i] <- unspecified` for `i < K`, at a fresh free draw (R207, R265). -/
def writeExhausted (p : Word) (s : State) : State :=
  { s with idx := scrambleIndices s.idx s.draws s.k.toNat, probes := p, draws := s.draws + 1 }

/-- What `INDEX`, `ADD` and `TEST` share (R207, R231, R232): the check, the digest, the generation; `onOk` is what the
command does with the indices. A generation that never ends leaves the command running: its completion step is never
enabled (R133, R205), so nothing changes. -/
def filterCommand (shape : Shape) (onOk : List Nat → State → State) (s : State) : State :=
  if filterOK shape s then
    match generation shape s with
    | .ok L p => complete (onOk L (writeIndices L p (writeDigest (digest shape s) s)))
    | .exhausted p => raise .hashExhausted (writeExhausted p (writeDigest (digest shape s) s))
    | .never => s
  else raise .invalidParameter s

/-- `INDEX` does nothing more with the indices (R207). -/
def indexOnly (_ : List Nat) (s : State) : State := s

/-- `INDEX.BYTES` (R207). -/
def execIndexBytes (s : State) : Host.Outcome State Fault Refusal := .next (filterCommand .bytes indexOnly s)

/-- `INDEX.U32` (R207). -/
def execIndexU32 (s : State) : Host.Outcome State Fault Refusal := .next (filterCommand .u32 indexOnly s)

/-- `INDEX.U64` (R207). -/
def execIndexU64 (s : State) : Host.Outcome State Fault Refusal := .next (filterCommand .u64 indexOnly s)

end Sys2Proof.Machine
end

