-- ==== Sys2Proof/Machine/Filter.lean ====
section
/-! DEFINITION. The filter operations `ADD`, `TEST`, `CLEAR` and `POPCNT` (43_filter_ops.md R230 to R246). -/

namespace Sys2Proof.Machine

/-- `BIT[L[i]] <- 1` for every index (R236). -/
def insertIndices (L : List Nat) (s : State) : State := { s with bits := setBits s.bits L }

/-- `R.RESULT <- 1` if every `BIT[L[i]]` is 1, else 0 (R239). -/
def testIndices (L : List Nat) (s : State) : State :=
  { s with result := if L.all (fun i => s.bits.bit i) then 1#64 else 0#64 }

/-- `ADD.BYTES` (R236). -/
def execAddBytes (s : State) : Host.Outcome State Fault Refusal := .next (filterCommand .bytes insertIndices s)

/-- `ADD.U32` (R236). -/
def execAddU32 (s : State) : Host.Outcome State Fault Refusal := .next (filterCommand .u32 insertIndices s)

/-- `ADD.U64` (R236). -/
def execAddU64 (s : State) : Host.Outcome State Fault Refusal := .next (filterCommand .u64 insertIndices s)

/-- `TEST.BYTES` (R239). -/
def execTestBytes (s : State) : Host.Outcome State Fault Refusal := .next (filterCommand .bytes testIndices s)

/-- `TEST.U32` (R239). -/
def execTestU32 (s : State) : Host.Outcome State Fault Refusal := .next (filterCommand .u32 testIndices s)

/-- `TEST.U64` (R239). -/
def execTestU64 (s : State) : Host.Outcome State Fault Refusal := .next (filterCommand .u64 testIndices s)

/-- `CLEAR`: every storage bit, not only the filter's (R241). -/
def execClear (s : State) : Host.Outcome State Fault Refusal := .next (complete { s with bits := Memory.zeroed })

/-- `POPCNT` (R246). -/
def execPopcnt (s : State) : Host.Outcome State Fault Refusal :=
  .next
    (if mOK s then complete { s with result := BitVec.ofNat 64 (countBits s.bits s.m.toNat) }
     else raise .invalidParameter s)

end Sys2Proof.Machine
end

