-- ==== Sys2Proof/Machine/Dispatch.lean ====
section
/-! DEFINITION. The dispatch: one arm per command (40_command_lifecycle.md R133). -/

namespace Sys2Proof.Machine

def exec (i : Instr) (s : State) : Host.Outcome State Fault Refusal :=
  match i with
  | .nop => Sys2Proof.Machine.execNop s
  | .hashBytes => Sys2Proof.Machine.execHashBytes s
  | .hashU32 => Sys2Proof.Machine.execHashU32 s
  | .hashU64 => Sys2Proof.Machine.execHashU64 s
  | .indexBytes => Sys2Proof.Machine.execIndexBytes s
  | .indexU32 => Sys2Proof.Machine.execIndexU32 s
  | .indexU64 => Sys2Proof.Machine.execIndexU64 s
  | .addBytes => Sys2Proof.Machine.execAddBytes s
  | .addU32 => Sys2Proof.Machine.execAddU32 s
  | .addU64 => Sys2Proof.Machine.execAddU64 s
  | .testBytes => Sys2Proof.Machine.execTestBytes s
  | .testU32 => Sys2Proof.Machine.execTestU32 s
  | .testU64 => Sys2Proof.Machine.execTestU64 s
  | .clear => Sys2Proof.Machine.execClear s
  | .popcnt => Sys2Proof.Machine.execPopcnt s
  | .abort => Sys2Proof.Machine.execAbort s

end Sys2Proof.Machine
end

