-- ==== Sys2Proof/Machine/Flags.lean ====
section
/-! DEFINITION. The flags: `STATUS` and `INTEN` as words, the W1C write, and the interrupt output (10_state.md R32, R40,
R56; 60_exceptions.md R273). -/

namespace Sys2Proof.Machine

/-- `STATUS` as the host reads it (R32): ERRCODE at 15:8, AERR 4, WERR 3, ERR 2, DONE 1, BUSY 0, every other bit 0. -/
def Status.toWord (x : Status) : Word :=
  0#48 ++ x.errcode ++ 0#3 ++ BitVec.ofBool x.aerr ++ BitVec.ofBool x.werr ++ BitVec.ofBool x.err ++
    BitVec.ofBool x.done ++ BitVec.ofBool x.busy

/-- A host write to `STATUS`: a written 1 clears DONE, ERR, WERR or AERR; BUSY and ERRCODE cannot be written (R32). -/
def Status.w1c (x : Status) (v : Word) : Status :=
  { x with
    done := x.done && !v.getLsbD 1
    err := x.err && !v.getLsbD 2
    werr := x.werr && !v.getLsbD 3
    aerr := x.aerr && !v.getLsbD 4 }

/-- `INTEN` as the host reads it (R40). -/
def Inten.toWord (x : Inten) : Word :=
  0#61 ++ BitVec.ofBool x.hosterrie ++ BitVec.ofBool x.errie ++ BitVec.ofBool x.doneie

/-- A host write to `INTEN`: bits [63:3] are ignored (R40). -/
def intenOfWord (v : Word) : Inten where
  doneie := v.getLsbD 0
  errie := v.getLsbD 1
  hosterrie := v.getLsbD 2

/-- The interrupt output (R273): a function of the current state, with no latch. -/
def irq (s : State) : Bool :=
  (s.status.done && s.inten.doneie) || (s.status.err && s.inten.errie) ||
    ((s.status.werr || s.status.aerr) && s.inten.hosterrie)

end Sys2Proof.Machine
end

