-- ==== Sys2Proof/Machine/Bus.lean ====
section
/-! DEFINITION. The host bus: the address map, `MemRead` and `MemWrite` (20_memory.md R70 to R83, R92 to R94). -/

namespace Sys2Proof.Machine

/-- The register at word index `n` of the register region, that is at offset `8n` (R30, R72). -/
def regAt (n : Nat) : Option Reg :=
  [Reg.id, .status, .cmd, .inten, .seed, .k, .m, .plim, .keylen, .keyval, .h1, .h2, .result, .probes, .capKey, .capK,
    .capBits][n]?

/-- Where an aligned offset falls (R71). -/
def locate (c : Config) (addr : Addr) : Region :=
  let o := addr.toNat
  if o < 0x800 then
    match regAt (o / 8) with
    | some r => .reg r
    | none => .unmapped
  else if o < 0x1000 then if (o - 0x800) / 8 < c.kmax then .idx ((o - 0x800) / 8) else .unmapped
  else if o < 0x10000 then .unmapped
  else if o < 0x20000 then if (o - 0x10000) / 8 < c.keywords then .keybuf ((o - 0x10000) / 8) else .unmapped
  else if o < 0x80000000 then .unmapped
  else if (o - 0x80000000) / 8 < c.bitwords then .bits ((o - 0x80000000) / 8) else .unmapped

/-- The `IN` registers (R30, R92). -/
def isIn : Reg → Bool
  | .seed | .k | .m | .plim | .keylen | .keyval => true
  | .id | .status | .cmd | .inten | .h1 | .h2 | .result | .probes | .capKey | .capK | .capBits => false

/-- The regions a busy read of which is unspecified: the `OUT` registers, the index window and the bit window (R93). -/
def isOut : Region → Bool
  | .reg .h1 | .reg .h2 | .reg .result | .reg .probes | .idx _ | .bits _ => true
  | .reg _ | .keybuf _ | .unmapped => false

/-- The value of a register (R31 to R50). `ID` and the `CAP_*` registers are hard-wired. -/
def readReg (r : Reg) (s : State) : Word :=
  match r with
  | .id => 0x4D33424600010007#64
  | .status => s.status.toWord
  | .cmd => s.lastcmd
  | .inten => s.inten.toWord
  | .seed => s.seed
  | .k => s.k
  | .m => s.m
  | .plim => s.plim
  | .keylen => s.keylen
  | .keyval => s.keyval
  | .h1 => s.h1
  | .h2 => s.h2
  | .result => s.result
  | .probes => s.probes
  | .capKey => BitVec.ofNat 64 s.cfg.keycap
  | .capK => BitVec.ofNat 64 s.cfg.kmax
  | .capBits => BitVec.ofNat 64 s.cfg.bitcap

/-- The value a region's rule gives a read while the engine is idle (R72, R75, R79, R80, R82). -/
def readRegion (r : Region) (s : State) : Word :=
  match r with
  | .reg r => readReg r s
  | .idx i => s.idx.word i
  | .keybuf j => s.keybuf.word j
  | .bits w => s.bits.word w &&& validMask (visibleBits s) w
  | .unmapped => 0#64

/-- Address bits [2:0] are 0 (R74). -/
def aligned (addr : Addr) : Bool := addr.extractLsb' 0 3 == 0#3

/-- `MemRead(addr, 8)` (R73, R74, R93): the value goes to `rdata`. -/
def memRead (addr : Addr) (s : State) : State :=
  if aligned addr then
    if s.status.busy && isOut (locate s.cfg addr) then
      { s with rdata := Config.freeWord s.draws 0, draws := s.draws + 1 }
    else { s with rdata := readRegion (locate s.cfg addr) s }
  else { flagMisaligned s with rdata := 0#64 }

/-- A host write to `CMD` (R39): the exact `ABORT` word acts at once (R139, R140); any other word starts a command while idle
(R131) and is dropped while busy (R136). -/
def writeCmd (v : Word) (s : State) : Host.Outcome State Fault Refusal :=
  if v = abortWord then exec .abort s
  else if s.status.busy then .next (dropWrite s)
  else .next (startCommand v s)

/-- Store a value in an `IN` register; other registers are not stored to by this. -/
def storeIn (r : Reg) (v : Word) (s : State) : State :=
  match r with
  | .seed => { s with seed := v }
  | .k => { s with k := v }
  | .m => { s with m := v }
  | .plim => { s with plim := v }
  | .keylen => { s with keylen := v }
  | .keyval => { s with keyval := v }
  | .id | .status | .cmd | .inten | .h1 | .h2 | .result | .probes | .capKey | .capK | .capBits => s

/-- A host write to a register: `CMD`, `STATUS` (W1C, R32) and `INTEN` (R40) by their own rules whatever `BUSY` is (R94); an
`IN` register unless busy (R92); a read-only register never (R76). -/
def writeReg (r : Reg) (v : Word) (s : State) : Host.Outcome State Fault Refusal :=
  match r with
  | .cmd => writeCmd v s
  | .status => .next { s with status := s.status.w1c v }
  | .inten => .next { s with inten := intenOfWord v }
  | .seed | .k | .m | .plim | .keylen | .keyval => .next (if s.status.busy then dropWrite s else storeIn r v s)
  | .id | .h1 | .h2 | .result | .probes | .capKey | .capK | .capBits => .next s

/-- The write rule of a region (R75, R76, R79, R80, R92). -/
def writeRegion (r : Region) (v : Word) (s : State) : Host.Outcome State Fault Refusal :=
  match r with
  | .reg r => writeReg r v s
  | .idx _ => .next s
  | .keybuf j => .next (if s.status.busy then dropWrite s else { s with keybuf := s.keybuf.setWord j v })
  | .bits w =>
    .next
      (if s.status.busy then dropWrite s
       else { s with bits := s.bits.setWord w (v &&& validMask (visibleBits s) w) })
  | .unmapped => .next s

/-- `MemWrite(addr, 8, v)` (R73, R74). -/
def memWrite (addr : Addr) (v : Word) (s : State) : Host.Outcome State Fault Refusal :=
  if aligned addr then writeRegion (locate s.cfg addr) v s else .next (flagMisaligned s)

/-- The offset of a register (R30). -/
def regOffset : Reg → Addr
  | .id => 0x00#32
  | .status => 0x08#32
  | .cmd => 0x10#32
  | .inten => 0x18#32
  | .seed => 0x20#32
  | .k => 0x28#32
  | .m => 0x30#32
  | .plim => 0x38#32
  | .keylen => 0x40#32
  | .keyval => 0x48#32
  | .h1 => 0x50#32
  | .h2 => 0x58#32
  | .result => 0x60#32
  | .probes => 0x68#32
  | .capKey => 0x70#32
  | .capK => 0x78#32
  | .capBits => 0x80#32

end Sys2Proof.Machine
end

