-- ==== Sys2Proof/Machine/Engine.lean ====
section
/-! DEFINITION. The engine's steps: the completion step (40_command_lifecycle.md R133) and the abort step
(60_exceptions.md R266). -/

namespace Sys2Proof.Machine

/-- The completion step: decode `cur`, then the command (R133). A word `decode` rejects raises `IllegalCommand` before any
operand is read (R263). Last arm of R133: the word `ABORT` as `cur`, which no start step latches (R140), acts as `NOP`. -/
def completionStep (s : State) : Host.Outcome State Fault Refusal :=
  match decode s.cur with
  | .error _ => .next (raise .illegalCommand s)
  | .ok i => if i = .abort then execNop s else exec i s

/-- The shape of the running command if it is an `INDEX`, `ADD` or `TEST` that has passed its checks (R266). -/
def abortableShape (s : State) : Option Shape :=
  match decode s.cur with
  | .error _ => none
  | .ok i =>
    match generatingShape i with
    | none => none
    | some shape => if filterOK shape s then some shape else none

/-- The generation never ends, so the completion step is never enabled (R133, R205). -/
def hangs (shape : Shape) (s : State) : Bool := generation shape s == .never

/-- `R.PROBES <- unspecified` and `IDX[i] <- unspecified` for `i < K`, at fresh free draws (R266). -/
def writeAborted (s : State) : State :=
  { s with
    probes := Config.freeWord s.draws 0
    idx := scrambleIndices s.idx (s.draws + 1) s.k.toNat
    draws := s.draws + 2 }

/-- The abort step (R266): the digest is kept, `PROBES` and `IDX[0..K)` become unspecified, and `Aborted` is raised. -/
def abortStep (shape : Shape) (s : State) : State :=
  raise .aborted (writeAborted (writeDigest (digest shape s) s))

/-- A busy engine's step when an abort is requested and the running command can be aborted: the abort step, or the
completion step if that one is enabled and the schedule prefers it (R266). -/
def abortOrComplete (abortFirst : Bool) (shape : Shape) (s : State) : Host.Outcome State Fault Refusal :=
  if hangs shape s || abortFirst then .next (abortStep shape s) else completionStep s

/-- The engine's move (R130, R281): nothing while idle; while busy, a step that is enabled. -/
def engineStep (abortFirst : Bool) (s : State) : Host.Outcome State Fault Refusal :=
  if s.status.busy then
    if s.abortReq then
      match abortableShape s with
      | some shape => abortOrComplete abortFirst shape s
      | none => completionStep s
    else completionStep s
  else .next s

end Sys2Proof.Machine
end

