-- ==== Sys2Proof/Machine/Agents.lean ====
section
/-! DEFINITION. The moves of the three agents (00_scope.md R5) and how a command word is placed for the engine. -/

namespace Sys2Proof.Machine

/-- The host's `wait` loop (R121): read `STATUS`; while `BUSY = 1`, let the engine move and read again. Which step the engine
takes, where two are enabled, is a free draw (log entries 6 and 7). -/
def pollStatus (s : State) : State :=
  if s.status.busy then
    { s with
      rdata := s.status.toWord
      agenda := .engine (Config.freePick s.draws) :: .wait :: s.agenda
      draws := s.draws + 1 }
  else { s with rdata := s.status.toWord }

/-- One agent's move (R5). -/
def takeTurn (t : Turn) (s : State) : Host.Outcome State Fault Refusal :=
  match t with
  | .read addr => .next (memRead addr s)
  | .write addr v => memWrite addr v s
  | .wait => .next (pollStatus s)
  | .engine abortFirst => engineStep abortFirst s
  | .reset => .next (resetStep s)

/-- With nothing scheduled, the engine moves alone: a running command goes on (R301), an idle engine does nothing (R281). -/
def runAlone (s : State) : Host.Outcome State Fault Refusal :=
  if s.status.busy then engineStep (Config.freePick s.draws) { s with draws := s.draws + 1 } else .next s

/-- Place a command word where the next step takes its command from. The exact `ABORT` word acts in the host's write to `CMD`
(R139), so that write comes next; any other word is started (R131) and the engine moves next. -/
def placeCommand (v : Word) (s : State) : State :=
  if v = abortWord then { s with agenda := .write (regOffset .cmd) v :: s.agenda }
  else { startCommand v s with agenda := .engine false :: s.agenda }

end Sys2Proof.Machine
end

