-- ==== Sys2Proof/Machine/Step.lean ====
section
/-! DEFINITION. The step: the next move of the agenda, or the engine alone (00_scope.md R5; 20_memory.md R85). -/

namespace Sys2Proof.Machine

/-- One step of the machine: one agent's move in the interleaving the agenda gives (R5, R85). -/
def step (s : State) : Host.Outcome State Fault Refusal :=
  match s.agenda with
  | t :: rest => takeTurn t { s with agenda := rest }
  | [] => runAlone s

/-- `s` with a command word placed so that the very next step runs it (log entry 1). -/
def State.withFetchWord (s : State) (nbits w : Nat) : State :=
  placeCommand (BitVec.ofNat 64 (w % 2 ^ nbits)) s

end Sys2Proof.Machine
end

