-- ==== Sys2Proof/Machine/Script.lean ====
section
/-! DEFINITION. The host-script statements and pseudo-instructions as lists of moves (30_encoding.md R120, R121; 00_scope.md
R18, R19), and the placement of the block (20_memory.md R71). -/

namespace Sys2Proof.Machine

/-- `wr NAME, v` (R120). -/
def wrReg (r : Reg) (v : Word) : Turn := .write (regOffset r) v

/-- `rd NAME` (R120). -/
def rdReg (r : Reg) : Turn := .read (regOffset r)

/-- The offset of entry `i` of a window (R71). -/
def windowAddr (base i : Nat) : Addr := BitVec.ofNat 32 (base + 8 * i)

/-- `wr KEYBUF[j], v` (R120). -/
def wrKeybuf (j : Nat) (v : Word) : Turn := .write (windowAddr 0x10000 j) v

/-- `rd KEYBUF[j]` (R120). -/
def rdKeybuf (j : Nat) : Turn := .read (windowAddr 0x10000 j)

/-- `wr BITS[w], v` (R120). -/
def wrBits (w : Nat) (v : Word) : Turn := .write (windowAddr 0x80000000 w) v

/-- `rd BITS[w]` (R120). -/
def rdBits (w : Nat) : Turn := .read (windowAddr 0x80000000 w)

/-- `rd IDX[i]` (R120). -/
def rdIdx (i : Nat) : Turn := .read (windowAddr 0x800 i)

/-- `cmd MNEMONIC` (R120). -/
def cmdTurn (i : Instr) : Turn := wrReg .cmd (encode i)

/-- `run MNEMONIC` (R121). -/
def runCmd (i : Instr) : List Turn := [cmdTurn i, .wait]

/-- `loadkey` (R121): the key's words, the last one padded with zero bytes, then its length. A text key is its UTF-8 bytes
(R18). -/
def loadKey (B : List Byte) : List Turn :=
  ((List.range ((B.length + 7) / 8)).map fun j => wrKeybuf j (le64 B (8 * j))) ++
    [wrReg .keylen (BitVec.ofNat 64 B.length)]

/-- `SEED`, `K`, `M` written in the order of R121. -/
def writeParams (seed k m : Word) : List Turn := [wrReg .seed seed, wrReg .k k, wrReg .m m]

/-- `setup seed, k, m`: `new(seed, k, m)` (R19, R121). -/
def setupFilter (seed k m : Word) : List Turn := writeParams seed k m ++ runCmd .clear

/-- The words of a list written to the bit-array window from word `w` on (R121). -/
def writeBitWords : Nat → List Word → List Turn
  | _, [] => []
  | w, v :: r => wrBits w v :: writeBitWords (w + 1) r

/-- `restore seed, k, m, [w0, …]`: `new(seed, k, m, bitWords)` (R19, R121). -/
def restoreFilter (seed k m : Word) (ws : List Word) : List Turn := writeParams seed k m ++ writeBitWords 0 ws

/-- `export m` (R121): the window's first `ceil(m/64)` words read in order. -/
def exportFilter (m : Nat) : List Turn := (List.range ((m + 63) / 64)).map rdBits

/-- Where a block-relative offset lies in the host's address space (R71, `BLOCK_BASE`). -/
def hostAddress (c : Config) (addr : Addr) : Word := c.blockBase + addr.setWidth 64

end Sys2Proof.Machine
end

