-- ==== Sys2Proof/Safety.lean ====
section
/-! DEFINITION. What counts as a safe state and a safe run, in the terms the statements use. -/

namespace Sys2Proof.Machine

/-- A command has started and has not ended: what the start step leaves (R131) until the command's end. -/
structure State.Running (s : State) : Prop where
  busy : s.status.busy = true
  notDone : s.status.done = false
  noErr : s.status.err = false
  noCode : s.status.errcode = 0#8

/-- A command has ended without error (R134). -/
structure State.EndedOK (s : State) : Prop where
  idle : s.status.busy = false
  done : s.status.done = true
  noErr : s.status.err = false

/-- The invariant of the machine: what every step keeps, in every legal configuration. -/
structure State.Inv (s : State) : Prop where
  /-- The parameters are in their ranges (R6). -/
  cfgLegal : s.cfg.legal = true
  /-- The arrays have their canonical form and lie inside their storage (R51 to R53). -/
  idxWf : s.idx.wf (8 * s.cfg.kmax) = true
  keybufWf : s.keybuf.wf s.cfg.keycap = true
  bitsWf : s.bits.wf (s.cfg.bitcap / 8) = true
  /-- "While `BUSY = 1`, `DONE = 0`" (R34). -/
  busyNotDone : s.status.busy = true → s.status.done = false
  /-- While a command runs no error is flagged (R35, R38, R270). -/
  busyNoErr : s.status.busy = true → s.status.err = false
  busyNoCode : s.status.busy = true → s.status.errcode = 0#8
  /-- "Values 5 to 255 are never produced" (R38). -/
  codeRange : s.status.errcode.toNat ≤ 4
  /-- `ERR` comes with its code (R35, R38). -/
  errHasCode : s.status.err = true → s.status.errcode ≠ 0#8
  /-- An abort is requested only of a running command (R134, R135, R139). -/
  abortBusy : s.abortReq = true → s.status.busy = true
  /-- `ABORT` is never latched (R140, D43). -/
  lastNotAbort : s.lastcmd ≠ abortWord
  /-- `RESULT` is 0, 1 or a count of at most `BITCAP` bits (R48, R246). -/
  resultBound : s.result.toNat ≤ s.cfg.bitcap
  /-- The fills are draws made before (the model's own: a later draw is a fresh one). -/
  idxDrawn : s.idx.drawnBefore s.draws = true
  keybufDrawn : s.keybuf.drawnBefore s.draws = true
  bitsDrawn : s.bits.drawnBefore s.draws = true

/-- The bit-array window's offsets begin here (R71). -/
def bitsBase : Nat := 0x80000000

/-- A move that leaves the filter's bits to `ADD`: no reset, and no host write to the bit-array window (R233, R238). -/
def Turn.sparesBits : Turn → Bool
  | .read _ | .wait | .engine _ => true
  | .write addr _ => decide (addr.toNat < bitsBase)
  | .reset => false

/-- The next step clears no filter bit: no `CLEAR` runs, and the next move is neither reset nor a window write (R233, R238). -/
def State.quiet (s : State) : Bool :=
  !(s.status.busy && s.lastcmd == encode .clear) &&
    match s.agenda with
    | [] => true
    | t :: _ => t.sparesBits

/-- A run of steps from `s` to `u` during which no `CLEAR`, window write or reset intervenes (R238). -/
inductive QuietRun : State → State → Prop where
  | refl (s : State) : QuietRun s s
  | step {s t u : State} : s.quiet = true → Sys2Proof.Machine.step s = .next t → QuietRun t u → QuietRun s u

end Sys2Proof.Machine
end

