-- ==== Sys2Proof/Certificates/Slice0/Obligations.lean ====
section
/-! DEFINITION. The statements for the provers. Each formalises rules of spec/ and cites them; `Sys2Proof.Claims` holds the
words they share, written from the spec and not from the meanings. -/

open Sys2Proof Sys2Proof.Machine

namespace Sys2Proof.Claims

/-! ### Words the statements share -/

/-- The command words of R104, with the command each stands for. -/
def commandWords : List (Word × Instr) :=
  [(0x000#64, .nop), (0x001#64, .hashBytes), (0x101#64, .hashU32), (0x201#64, .hashU64), (0x002#64, .indexBytes),
   (0x102#64, .indexU32), (0x202#64, .indexU64), (0x003#64, .addBytes), (0x103#64, .addU32), (0x203#64, .addU64),
   (0x004#64, .testBytes), (0x104#64, .testU32), (0x204#64, .testU64), (0x005#64, .clear), (0x006#64, .popcnt),
   (0x00F#64, .abort)]

/-- `HASH` by shape (R177). -/
def hashCommands : List (Instr × Shape) := [(.hashBytes, .bytes), (.hashU32, .u32), (.hashU64, .u64)]

/-- `INDEX` by shape (R207). -/
def indexCommands : List (Instr × Shape) := [(.indexBytes, .bytes), (.indexU32, .u32), (.indexU64, .u64)]

/-- `ADD` by shape (R236). -/
def addCommands : List (Instr × Shape) := [(.addBytes, .bytes), (.addU32, .u32), (.addU64, .u64)]

/-- `TEST` by shape (R239). -/
def testCommands : List (Instr × Shape) := [(.testBytes, .bytes), (.testU32, .u32), (.testU64, .u64)]

/-- The commands that generate indices (R266). -/
def filterCommands : List (Instr × Shape) := indexCommands ++ addCommands ++ testCommands

/-- The key of a shape is `B` (R106 to R108, R173 to R175). -/
def KeyIs (shape : Shape) (s : State) (B : List Byte) : Prop :=
  match shape with
  | .bytes => B.length = s.keylen.toNat ∧ ∀ j, j < s.keylen.toNat → B[j]? = some (s.keybuf.byte j)
  | .u32 =>
    B.length = 4 ∧ ∀ j, j < 4 →
      (B[j]?.map BitVec.toNat) = some
        (match s.cfg.int32Order with
         | .big => s.keyval.toNat % 2 ^ 32 / 256 ^ (3 - j) % 256
         | .little => s.keyval.toNat % 2 ^ 32 / 256 ^ j % 256)
  | .u64 =>
    B.length = 8 ∧ ∀ j, j < 8 →
      (B[j]?.map BitVec.toNat) = some
        (match s.cfg.int64Order with
         | .big => s.keyval.toNat / 256 ^ (7 - j) % 256
         | .little => s.keyval.toNat / 256 ^ j % 256)

/-- `KEYLEN` is legal for the shape (R264). -/
def KeylenOK (shape : Shape) (s : State) : Prop := shape = .bytes → s.keylen.toNat ≤ s.cfg.keycap

/-- `FilterOK(shape)` (R231). -/
def ParamsOK (shape : Shape) (s : State) : Prop :=
  (1 ≤ s.k.toNat ∧ s.k.toNat ≤ s.cfg.kmax) ∧ (8 ≤ s.m.toNat ∧ s.m.toNat ≤ s.cfg.bitcap) ∧ KeylenOK shape s

/-- The operands for which R264's table raises `InvalidParameter`. -/
def BadOperands (i : Instr) (s : State) : Prop :=
  match i with
  | .hashBytes => s.cfg.keycap < s.keylen.toNat
  | .indexBytes | .addBytes | .testBytes =>
    s.k.toNat < 1 ∨ s.cfg.kmax < s.k.toNat ∨ s.m.toNat < 8 ∨ s.cfg.bitcap < s.m.toNat ∨ s.cfg.keycap < s.keylen.toNat
  | .indexU32 | .indexU64 | .addU32 | .addU64 | .testU32 | .testU64 =>
    s.k.toNat < 1 ∨ s.cfg.kmax < s.k.toNat ∨ s.m.toNat < 8 ∨ s.cfg.bitcap < s.m.toNat
  | .popcnt => s.m.toNat < 8 ∨ s.cfg.bitcap < s.m.toNat
  | .nop | .hashU32 | .hashU64 | .clear | .abort => False

/-- The command ended without error (R134): `BUSY` 0, `DONE` 1, the other flags as they were, `abort_req` 0. -/
def EndsWell (s t : State) : Prop :=
  t.status = { s.status with busy := false, done := true } ∧ t.abortReq = false

/-- The command ended with the error of a code (R135, R262). -/
def EndsWith (code : BitVec 8) (s t : State) : Prop :=
  t.status = { s.status with busy := false, done := true, err := true, errcode := code } ∧ t.abortReq = false

/-- What no command's end touches (R52, R109, R132, R268): the inputs, the key buffer, the controls, the parameters, and what
belongs to the host. -/
structure HostFrame (s t : State) : Prop where
  cfg : t.cfg = s.cfg
  lastcmd : t.lastcmd = s.lastcmd
  inten : t.inten = s.inten
  seed : t.seed = s.seed
  k : t.k = s.k
  m : t.m = s.m
  plim : t.plim = s.plim
  keylen : t.keylen = s.keylen
  keyval : t.keyval = s.keyval
  keybuf : t.keybuf = s.keybuf
  rdata : t.rdata = s.rdata
  agenda : t.agenda = s.agenda
  werr : t.status.werr = s.status.werr
  aerr : t.status.aerr = s.status.aerr

/-- Two running commands hash the same key under the same seed: `SEED`, the key bytes and `TAIL_SIGN_EXTEND` (R171). -/
def SameKey (shape : Shape) (s : State) (shape' : Shape) (u : State) : Prop :=
  s.seed = u.seed ∧ s.cfg.tailSignExtend = u.cfg.tailSignExtend ∧ ∃ B, KeyIs shape s B ∧ KeyIs shape' u B

/-- Candidate `i` of R201: `((h1 + i·h2) mod 2^64 & MASK63) mod m`. -/
def candidateAt (h1 h2 : Word) (m i : Nat) : Nat := (h1.toNat + i * h2.toNat) % 2 ^ 64 % 2 ^ 63 % m

/-- The distinct candidates among the first `n`, in order of acceptance (R201, R203). -/
def acceptedAfter (h1 h2 : Word) (m : Nat) : Nat → List Nat
  | 0 => []
  | n + 1 =>
    if candidateAt h1 h2 m n ∈ acceptedAfter h1 h2 m n then acceptedAfter h1 h2 m n
    else acceptedAfter h1 h2 m n ++ [candidateAt h1 h2 m n]

/-! ### `establish` once more, over plain numbers and reading the key front to back -/

/-- A 64-bit rotation of a number below `2^64` (R10). -/
def rotN (x r : Nat) : Nat := x * 2 ^ r % 2 ^ 64 + x / 2 ^ (64 - r)

def mix1N (x : Nat) : Nat := rotN (x * 0x87c37b91114253d5 % 2 ^ 64) 31 * 0x4cf5ad432745937f % 2 ^ 64

def mix2N (x : Nat) : Nat := rotN (x * 0x4cf5ad432745937f % 2 ^ 64) 33 * 0x87c37b91114253d5 % 2 ^ 64

def fmixN (x : Nat) : Nat :=
  let a := (x ^^^ (x / 2 ^ 33)) * 0xff51afd7ed558ccd % 2 ^ 64
  let b := (a ^^^ (a / 2 ^ 33)) * 0xc4ceb9fe1a85ec53 % 2 ^ 64
  b ^^^ (b / 2 ^ 33)

/-- The number whose little-endian bytes are given. -/
def littleN : List Nat → Nat
  | [] => 0
  | b :: r => b + 256 * littleN r

/-- Finalization (R170). -/
def finishN (len h1 h2 : Nat) : Nat × Nat :=
  let a1 := ((h1 ^^^ len) + (h2 ^^^ len)) % 2 ^ 64
  let a2 := ((h2 ^^^ len) + a1) % 2 ^ 64
  let b1 := (fmixN a1 + fmixN a2) % 2 ^ 64
  (b1, (fmixN a2 + b1) % 2 ^ 64)

/-- What a tail byte stands for: itself, or with `TAIL_SIGN_EXTEND` the 64-bit two's complement of its signed value (R166). -/
def tailByteN (se : Bool) (b : Nat) : Nat := if se = true ∧ 128 ≤ b then 2 ^ 64 - 256 + b else b

/-- A tail word: the first byte lies lowest, and a sign-extended byte also flips every bit above its own (R167). -/
def tailN (se : Bool) : List Nat → Nat
  | [] => 0
  | b :: r => tailByteN se b ^^^ (256 * tailN se r % 2 ^ 64)

/-- `n` chunks of 16 bytes from the front of the key, then what is left as the tail (R163 to R168). -/
def hashN (se : Bool) (len : Nat) : Nat → List Nat → Nat → Nat → Nat × Nat
  | 0, B, h1, h2 => finishN len (h1 ^^^ mix1N (tailN se (B.take 8))) (h2 ^^^ mix2N (tailN se (B.drop 8)))
  | n + 1, B, h1, h2 =>
    let x1 := ((rotN (h1 ^^^ mix1N (littleN (B.take 8))) 27 + h2) * 5 + 0x52dce729) % 2 ^ 64
    let x2 := ((rotN (h2 ^^^ mix2N (littleN ((B.drop 8).take 8))) 31 + x1) * 5 + 0x38495ab5) % 2 ^ 64
    hashN se len n (B.drop 16) x1 x2

end Sys2Proof.Claims

open Sys2Proof.Claims

/-! ### Encoding -/

/-- R104: the sixteen listed words, each with its command, and no other word, are legal. -/
def Obligations.DecodeAcceptsExactlyTheListedWords : Prop :=
  ∀ (w : Word) (i : Instr), decode w = .ok i ↔ (w, i) ∈ commandWords

/-- R110's conditions for an illegal word, and R105's `ILLEGAL`, on the fields as numbers. -/
def Obligations.DecodeRejectsExactlyTheIllegalWords : Prop :=
  ∀ w : Word,
    (∃ e, decode w = .error e) ↔
      w.toNat / 1024 ≠ 0 ∨ w.toNat % 256 ∉ [0, 1, 2, 3, 4, 5, 6, 15] ∨
        (w.toNat % 256 ∈ [1, 2, 3, 4] ∧ w.toNat / 256 % 4 = 3) ∨
          (w.toNat % 256 ∈ [0, 5, 6, 15] ∧ w.toNat / 256 % 4 ≠ 0)

/-- Decoding the encoded word of a command gives the command back; and one word of each family, written out from R100 to R102 as
RSV, SHAPE and OP, decodes to its command (R104, R105). -/
def Obligations.EncodedCommandsDecodeBack : Prop :=
  (∀ i : Instr, decode (encode i) = .ok i) ∧
    decode (0#54 ++ 0#2 ++ 0x00#8) = .ok .nop ∧ decode (0#54 ++ 2#2 ++ 0x01#8) = .ok .hashU64 ∧
      decode (0#54 ++ 1#2 ++ 0x02#8) = .ok .indexU32 ∧ decode (0#54 ++ 0#2 ++ 0x03#8) = .ok .addBytes ∧
        decode (0#54 ++ 1#2 ++ 0x04#8) = .ok .testU32 ∧ decode (0#54 ++ 0#2 ++ 0x05#8) = .ok .clear ∧
          decode (0#54 ++ 0#2 ++ 0x06#8) = .ok .popcnt ∧ decode (0#54 ++ 0#2 ++ 0x0F#8) = .ok .abort

/-! ### Steps -/

/-- What each move without a word of its own does. A busy engine's move runs the command `cur` decodes to, and the exact `ABORT`
word written to `CMD` runs `ABORT` in the host's own step (R105, R133, R139): around `exec` the step only takes the move off the
agenda. `ABORT` is never `cur` (R140); a requested abort and an undecodable word are stated apart. An idle engine does nothing
(R281). A `wait` reads `STATUS`, and repeats while `BUSY = 1` (R121). That the next move stands in `agenda`, that a `wait` lets
the engine move before it polls again, and that with an empty agenda a busy engine moves alone, each time with the free pick of
a fresh draw, are the model's form (log entries 1 and 7). -/
def Obligations.StepRunsTheDecodedCommand : Prop :=
  ∀ (s : State) (rest : List Turn),
    (∀ (b : Bool) (i : Instr), s.agenda = .engine b :: rest → s.status.busy = true → s.abortReq = false →
        decode s.lastcmd = .ok i → i ≠ .abort → step s = exec i { s with agenda := rest }) ∧
      (s.agenda = .write 0x10#32 0x00F#64 :: rest → step s = exec .abort { s with agenda := rest }) ∧
        (∀ b : Bool, s.agenda = .engine b :: rest → s.status.busy = false → step s = .next { s with agenda := rest }) ∧
          (s.agenda = [] → s.status.busy = false → step s = .next s) ∧
            (s.agenda = [] → s.status.busy = true →
              step s = step { s with agenda := [.engine (Config.freePick s.draws)], draws := s.draws + 1 }) ∧
              (s.agenda = .wait :: rest → s.status.busy = false →
                step s = .next { s with agenda := rest, rdata := s.status.toWord }) ∧
                (s.agenda = .wait :: rest → s.status.busy = true →
                  step s = .next
                    { s with
                      agenda := .engine (Config.freePick s.draws) :: .wait :: rest
                      rdata := s.status.toWord, draws := s.draws + 1 })

/-- Every step of every state gives a next state. R260 says that the block has no trap; that it has no stop either is the
model's deduction from R74, R75 and R262 (log entry 12). -/
def Obligations.EveryStepGivesANextState : Prop := ∀ s : State, ∃ t, step s = .next t

/-! ### The command's life -/

/-- R131, the start step; and what it leaves of the interrupt output. -/
def Obligations.CommandWriteStartsTheCommand : Prop :=
  ∀ (s : State) (v : Word) (rest : List Turn),
    s.agenda = .write 0x10#32 v :: rest → s.status.busy = false → v ≠ 0x00F#64 →
      ∃ t, step s = .next t ∧
        t = { s with
              agenda := rest, lastcmd := v, abortReq := false
              status := { s.status with busy := true, done := false, err := false, errcode := 0#8 } } ∧
        irq t = ((s.status.werr || s.status.aerr) && s.inten.hosterrie)

/-- `NOP` only completes (R134, R138). -/
def Obligations.NopOnlyCompletes : Prop :=
  ∀ s : State,
    exec .nop s = .next { s with status := { s.status with busy := false, done := true }, abortReq := false }

/-- R263: an undecodable word, written while idle, ends in the completion step with code 3; nothing but `STATUS` and
`LASTCMD` changes. -/
def Obligations.IllegalWordEndsWithIllegalCommand : Prop :=
  ∀ (s : State) (v : Word) (b : Bool) (rest : List Turn),
    s.agenda = .write 0x10#32 v :: .engine b :: rest → s.status.busy = false → (∀ i, decode v ≠ .ok i) →
      ∃ u, step s = .next u ∧ u.lastcmd = v ∧ u.status.busy = true ∧
        step u = .next
          { s with
            agenda := rest, lastcmd := v, abortReq := false
            status := { s.status with busy := false, done := true, err := true, errcode := 3#8 } }

/-- R136: a `CMD` write while busy, other than `ABORT`, is dropped and sets `WERR`. -/
def Obligations.BusyCommandWriteIsDropped : Prop :=
  ∀ (s : State) (v : Word) (rest : List Turn),
    s.agenda = .write 0x10#32 v :: rest → s.status.busy = true → v ≠ 0x00F#64 →
      step s = .next { s with agenda := rest, status := { s.status with werr := true } }

/-- R140: the `ABORT` word written while idle changes nothing. -/
def Obligations.IdleAbortIsIgnored : Prop :=
  ∀ (s : State) (rest : List Turn),
    s.agenda = .write 0x10#32 0x00F#64 :: rest → s.status.busy = false → step s = .next { s with agenda := rest }

/-- `ABORT` while busy requests an abort and writes nothing else (R139); while idle it does nothing (R140). -/
def Obligations.AbortOnlyRequests : Prop :=
  ∀ s : State,
    (s.status.busy = true → exec .abort s = .next { s with abortReq := true }) ∧
      (s.status.busy = false → exec .abort s = .next s)

/-- R266. For a running `INDEX`, `ADD` or `TEST` with legal operands and a requested abort the abort step is enabled: it keeps
the digest, raises `Aborted`, leaves `PROBES` and `IDX[0..K)` unspecified and all else as it was. Beside it the completion step
stays enabled if the command can complete, and a schedule takes it; where the generation never ends, every engine move takes
the abort step. That the schedule's bit `b` picks between the two is the model's form (log entry 6). -/
def Obligations.RequestedAbortAdmitsBothEnds : Prop :=
  ∀ (s : State) (rest : List Turn) (b : Bool) (i : Instr) (shape : Shape) (B : List Byte),
    s.agenda = .engine b :: rest → s.status.busy = true → s.abortReq = true → decode s.lastcmd = .ok i →
      (i, shape) ∈ filterCommands → ParamsOK shape s → KeyIs shape s B →
        let d := establish s.cfg.tailSignExtend B s.seed
        let ends := hashes d.1 d.2 s.k.toNat s.m.toNat s.plim ≠ .never
        (b = true ∨ ¬ ends →
            ∃ t, step s = .next t ∧ EndsWith 4#8 s t ∧ HostFrame { s with agenda := rest } t ∧ t.h1 = d.1 ∧ t.h2 = d.2 ∧
              t.bits = s.bits ∧ t.result = s.result ∧ ∀ j, s.k.toNat ≤ j → t.idx.word j = s.idx.word j) ∧
          (b = false → ends → step s = exec i { s with agenda := rest })

/-- An abort request enables nothing for any other running command, nor for one whose operands are illegal, nor for a word that
does not decode (R139, R266, R267): the command ends as if none had been made, an undecodable word with code 3 (R263). -/
def Obligations.AbortTouchesNoOtherCommand : Prop :=
  ∀ (s : State) (rest : List Turn) (b : Bool), s.agenda = .engine b :: rest → s.status.busy = true →
    (∀ i : Instr, decode s.lastcmd = .ok i → i ≠ .abort →
        (∀ shape, (i, shape) ∈ filterCommands → ¬ ParamsOK shape s) → step s = exec i { s with agenda := rest }) ∧
      ((∀ i, decode s.lastcmd ≠ .ok i) →
        step s = .next
          { s with
            agenda := rest, abortReq := false
            status := { s.status with busy := false, done := true, err := true, errcode := 3#8 } })

/-- R264's table, whole: which operands raise `InvalidParameter`, and that it then changes nothing but `STATUS`. -/
def Obligations.InvalidParameterExactlyAsTabulated : Prop :=
  ∀ (i : Instr) (s : State), s.Running →
    ∃ t, exec i s = .next t ∧ (t.status.errcode = 1#8 ↔ BadOperands i s) ∧
      (BadOperands i s →
        t = { s with
              status := { s.status with busy := false, done := true, err := true, errcode := 1#8 }
              abortReq := false })

/-- What any command leaves unchanged, whatever its outcome (R109, R268). -/
def Obligations.CommandsWriteOnlyTheirOutputs : Prop :=
  ∀ (i : Instr) (s t : State), exec i s = .next t →
    HostFrame s t ∧
      ((∀ shape, (i, shape) ∉ hashCommands ++ filterCommands) → t.h1 = s.h1 ∧ t.h2 = s.h2) ∧
        ((∀ shape, (i, shape) ∉ filterCommands) → t.probes = s.probes ∧ t.idx = s.idx) ∧
          (∀ j, s.k.toNat ≤ j → t.idx.word j = s.idx.word j) ∧
            ((∀ shape, (i, shape) ∉ testCommands) → i ≠ .popcnt → t.result = s.result) ∧
              ((∀ shape, (i, shape) ∉ addCommands) → i ≠ .clear → t.bits = s.bits)

/-! ### The hash unit -/

/-- R161 and R162: the two mixing functions, with their constants and rotations written out, and the rules' examples. -/
def Obligations.MixingFunctions : Prop :=
  (∀ x : Word, mix1 x = (x * 0x87c37b91114253d5#64).rotateLeft 31 * 0x4cf5ad432745937f#64) ∧
    (∀ x : Word, mix2 x = (x * 0x4cf5ad432745937f#64).rotateLeft 33 * 0x87c37b91114253d5#64) ∧
      mix1 0#64 = 0#64 ∧ mix2 0#64 = 0#64 ∧ mix1 1#64 = 0x34E09D0B6BDEFE38#64 ∧ mix2 1#64 = 0x4E26F5539BB7C37E#64

/-- R168: tail mixing, and that doing its two lines for an empty tail, or the `h2` line for a tail of at most 8 bytes, would
change nothing. -/
def Obligations.TailMixingOfAShortTail : Prop :=
  ∀ (se : Bool) (B : List Byte) (x : HashState),
    mixTail se B x =
        { x with h1 := x.h1 ^^^ mix1 (tailWords se B).1, h2 := x.h2 ^^^ mix2 (tailWords se B).2 } ∧
      (B.length % 16 ≤ 8 → (mixTail se B x).h2 = x.h2) ∧ (B.length % 16 = 0 → mixTail se B x = x)

/-- `establish` agrees with the streaming transcription over numbers, for every key, every seed and both settings of
`TAIL_SIGN_EXTEND` (R160 to R170). The transcription takes `fmix64`, the xor of the tail bytes and their places as the spec's
rules have them, which the spec marks as from general knowledge (log entry 13); both settings are modelled (log entry 14). -/
def Obligations.EstablishAgreesWithStreamingForm : Prop :=
  ∀ (se : Bool) (B : List Byte) (seed : Word),
    ((establish se B seed).1.toNat, (establish se B seed).2.toNat) =
      hashN se B.length (B.length / 16) (B.map BitVec.toNat) seed.toNat seed.toNat

/-- `HASH` of each shape: the digest of the key in `H1`, `H2`, success, and nothing else changed (R177). -/
def Obligations.HashWritesTheDigest : Prop :=
  ∀ (i : Instr) (shape : Shape) (s : State) (B : List Byte),
    (i, shape) ∈ hashCommands → KeylenOK shape s → KeyIs shape s B →
      ∃ t, exec i s = .next t ∧ EndsWell s t ∧ HostFrame s t ∧
        t.h1 = (establish s.cfg.tailSignExtend B s.seed).1 ∧ t.h2 = (establish s.cfg.tailSignExtend B s.seed).2 ∧
          t.idx = s.idx ∧ t.bits = s.bits ∧ t.result = s.result ∧ t.probes = s.probes

/-- The digest depends on the key bytes and the seed alone: not on key buffer bytes beyond `KEYLEN`, not on `KEYVAL[63:32]` for
`U32`, not on `K`, `M` or `PLIM`, nor on the command that hashes (R109, R171, R177). -/
def Obligations.DigestDependsOnKeyAndSeedOnly : Prop :=
  ∀ (i i' : Instr) (shape shape' : Shape) (s u t v : State),
    (i, shape) ∈ hashCommands ++ filterCommands → (i', shape') ∈ hashCommands ++ filterCommands →
      s.Running → u.Running → SameKey shape s shape' u →
        exec i s = .next t → exec i' u = .next v → t.EndedOK → v.EndedOK → t.h1 = v.h1 ∧ t.h2 = v.h2

/-! ### Index generation -/

/-- R201 to R205 in closed form. Let `acceptedAfter n` be the distinct candidates among the first `n`. The generation is `OK`
with those of the first `n` for which there are `k`, if the probe limit allows `n` probes; it is `EXHAUSTED` at the limit if
there are fewer by then; it never ends if there is no limit and there are fewer for every `n`. -/
def Obligations.GenerationTakesTheFirstKDistinctCandidates : Prop :=
  ∀ (h1 h2 plim : Word) (k m : Nat), 1 ≤ k → 8 ≤ m → m ≤ 17179869184 →
    (∃ n, (plim = 0#64 ∨ n ≤ plim.toNat) ∧ (acceptedAfter h1 h2 m n).length = k ∧
        (∀ j, j < n → (acceptedAfter h1 h2 m j).length < k) ∧
          hashes h1 h2 k m plim = .ok (acceptedAfter h1 h2 m n) (BitVec.ofNat 64 n)) ∨
      (plim ≠ 0#64 ∧ (acceptedAfter h1 h2 m plim.toNat).length < k ∧ hashes h1 h2 k m plim = .exhausted plim) ∨
        (plim = 0#64 ∧ (∀ n, (acceptedAfter h1 h2 m n).length < k) ∧ hashes h1 h2 k m plim = .never)

/-- Every `OK` result is a list of exactly `k` distinct indices in `[0, m)`, and takes at most `PLIM` probes (C3, R202, R204). -/
def Obligations.OkGenerationIsKDistinctIndices : Prop :=
  ∀ (h1 h2 plim p : Word) (k m : Nat) (L : List Nat), 1 ≤ m → hashes h1 h2 k m plim = .ok L p →
    L.length = k ∧ L.Nodup ∧ (∀ c ∈ L, c < m) ∧ (plim ≠ 0#64 → p.toNat ≤ plim.toNat)

/-- R205's cases that hang without a probe limit. -/
def Obligations.DegenerateGenerationsNeverEnd : Prop :=
  ∀ (h1 h2 : Word) (k m : Nat), 8 ≤ m → m ≤ 17179869184 →
    (m < k → hashes h1 h2 k m 0#64 = .never) ∧
      (h2 = 0#64 → 2 ≤ k → hashes h1 h2 k m 0#64 = .never) ∧
        ((∃ e, m = 2 ^ e) → h2.toNat % m % 2 = 0 → m / Nat.gcd (h2.toNat % m) m < k →
          hashes h1 h2 k m 0#64 = .never)

/-- R206: for odd `h2` and `k ≤ m` an unlimited generation ends; with `k = 1` every generation ends after one probe. -/
def Obligations.GenerationEndsForOddStepOrOneIndex : Prop :=
  ∀ (h1 h2 : Word) (k m : Nat), 8 ≤ m → m ≤ 17179869184 →
    (h2.toNat % 2 = 1 → k ≤ m → ∃ L p, hashes h1 h2 k m 0#64 = .ok L p) ∧
      ∀ plim, hashes h1 h2 1 m plim = .ok [h1.toNat % 2 ^ 63 % m] 1#64

/-- `INDEX` of each shape whose generation succeeds: the digest, the indices in order, the probe count, success, and nothing
else changed (R207). -/
def Obligations.IndexWritesTheIndices : Prop :=
  ∀ (i : Instr) (shape : Shape) (s : State) (B : List Byte) (L : List Nat) (p : Word),
    (i, shape) ∈ indexCommands → ParamsOK shape s → KeyIs shape s B →
      hashes (establish s.cfg.tailSignExtend B s.seed).1 (establish s.cfg.tailSignExtend B s.seed).2 s.k.toNat s.m.toNat
          s.plim = .ok L p →
        ∃ t, exec i s = .next t ∧ EndsWell s t ∧ HostFrame s t ∧
          t.h1 = (establish s.cfg.tailSignExtend B s.seed).1 ∧ t.h2 = (establish s.cfg.tailSignExtend B s.seed).2 ∧ t.probes = p ∧
            (∀ j, t.idx.word j = if j < s.k.toNat then BitVec.ofNat 64 (L.getD j 0) else s.idx.word j) ∧
              t.bits = s.bits ∧ t.result = s.result

/-- R265: an exhausted generation of `INDEX`, `ADD` or `TEST`. -/
def Obligations.ExhaustedGenerationEndsWithHashExhausted : Prop :=
  ∀ (i : Instr) (shape : Shape) (s : State) (B : List Byte),
    (i, shape) ∈ filterCommands → ParamsOK shape s → KeyIs shape s B → s.plim ≠ 0#64 →
      (acceptedAfter (establish s.cfg.tailSignExtend B s.seed).1 (establish s.cfg.tailSignExtend B s.seed).2 s.m.toNat
          s.plim.toNat).length < s.k.toNat →
        ∃ t, exec i s = .next t ∧ EndsWith 2#8 s t ∧ HostFrame s t ∧
          t.h1 = (establish s.cfg.tailSignExtend B s.seed).1 ∧ t.h2 = (establish s.cfg.tailSignExtend B s.seed).2 ∧ t.probes = s.plim ∧ t.bits = s.bits ∧
            t.result = s.result ∧ ∀ j, s.k.toNat ≤ j → t.idx.word j = s.idx.word j

/-- A command whose generation never ends has no completion step (R133, R205). That an engine move then leaves it busy and the
state as it was is the model's deduction (log entry 11). -/
def Obligations.EndlessGenerationStaysBusy : Prop :=
  ∀ (i : Instr) (shape : Shape) (s : State) (rest : List Turn) (b : Bool) (B : List Byte),
    s.agenda = .engine b :: rest → s.status.busy = true → s.abortReq = false → decode s.lastcmd = .ok i →
      (i, shape) ∈ filterCommands → ParamsOK shape s → KeyIs shape s B →
        hashes (establish s.cfg.tailSignExtend B s.seed).1 (establish s.cfg.tailSignExtend B s.seed).2 s.k.toNat
            s.m.toNat s.plim = .never →
          step s = .next { s with agenda := rest }

/-- With `K = 1` every `INDEX`, `ADD` and `TEST` with legal operands completes after one probe (R206). -/
def Obligations.OneIndexCommandsComplete : Prop :=
  ∀ (i : Instr) (shape : Shape) (s : State) (B : List Byte),
    (i, shape) ∈ filterCommands → ParamsOK shape s → KeyIs shape s B → s.k = 1#64 →
      ∃ t, exec i s = .next t ∧ EndsWell s t ∧ t.probes = 1#64 ∧
        (t.idx.word 0).toNat = (establish s.cfg.tailSignExtend B s.seed).1.toNat % 2 ^ 63 % s.m.toNat

/-- R244: for fixed `SEED`, `K`, `M` and key bytes every successful `INDEX`, `ADD` or `TEST` writes the same `IDX[0..K)` and
`PROBES`. -/
def Obligations.SuccessfulGenerationsAgree : Prop :=
  ∀ (i i' : Instr) (shape shape' : Shape) (s u t v : State),
    (i, shape) ∈ filterCommands → (i', shape') ∈ filterCommands → s.Running → u.Running → SameKey shape s shape' u →
      s.k = u.k → s.m = u.m → exec i s = .next t → exec i' u = .next v → t.EndedOK → v.EndedOK →
        t.probes = v.probes ∧ ∀ j, j < s.k.toNat → t.idx.word j = v.idx.word j

/-! ### The filter -/

/-- `ADD` of each shape whose generation succeeds: exactly the bits of its `k` indices, all below `m`, become 1; the outputs
are `INDEX`'s; `RESULT` is not written (R236). -/
def Obligations.AddSetsExactlyItsBits : Prop :=
  ∀ (i : Instr) (shape : Shape) (s : State) (B : List Byte) (L : List Nat) (p : Word),
    (i, shape) ∈ addCommands → ParamsOK shape s → KeyIs shape s B →
      hashes (establish s.cfg.tailSignExtend B s.seed).1 (establish s.cfg.tailSignExtend B s.seed).2 s.k.toNat s.m.toNat
          s.plim = .ok L p →
        ∃ t, exec i s = .next t ∧ EndsWell s t ∧ HostFrame s t ∧
          t.h1 = (establish s.cfg.tailSignExtend B s.seed).1 ∧ t.h2 = (establish s.cfg.tailSignExtend B s.seed).2 ∧ t.probes = p ∧
            (∀ j, t.idx.word j = if j < s.k.toNat then BitVec.ofNat 64 (L.getD j 0) else s.idx.word j) ∧
              (∀ j, t.bits.bit j = (decide (j ∈ L) || s.bits.bit j)) ∧ (∀ j ∈ L, j < s.m.toNat) ∧
                t.result = s.result

/-- R237: which bits an `ADD` sets is a function of the key bytes, `SEED`, `K` and `M`, and not of `PLIM`. -/
def Obligations.AddedBitsDoNotDependOnTheProbeLimit : Prop :=
  ∀ (i i' : Instr) (shape shape' : Shape) (s u t v : State),
    (i, shape) ∈ addCommands → (i', shape') ∈ addCommands → s.Running → u.Running → SameKey shape s shape' u →
      s.k = u.k → s.m = u.m → exec i s = .next t → exec i' u = .next v → t.EndedOK → v.EndedOK →
        ∃ L : List Nat, (∀ j, t.bits.bit j = (decide (j ∈ L) || s.bits.bit j)) ∧
          ∀ j, v.bits.bit j = (decide (j ∈ L) || u.bits.bit j)

/-- `TEST` of each shape whose generation succeeds: `RESULT` is 1 exactly if every indexed bit is 1; the outputs are
`INDEX`'s; no bit is written (R239). -/
def Obligations.TestReportsWhetherAllBitsAreSet : Prop :=
  ∀ (i : Instr) (shape : Shape) (s : State) (B : List Byte) (L : List Nat) (p : Word),
    (i, shape) ∈ testCommands → ParamsOK shape s → KeyIs shape s B →
      hashes (establish s.cfg.tailSignExtend B s.seed).1 (establish s.cfg.tailSignExtend B s.seed).2 s.k.toNat s.m.toNat
          s.plim = .ok L p →
        ∃ t, exec i s = .next t ∧ EndsWell s t ∧ HostFrame s t ∧
          t.h1 = (establish s.cfg.tailSignExtend B s.seed).1 ∧ t.h2 = (establish s.cfg.tailSignExtend B s.seed).2 ∧ t.probes = p ∧
            (∀ j, t.idx.word j = if j < s.k.toNat then BitVec.ofNat 64 (L.getD j 0) else s.idx.word j) ∧
              t.bits = s.bits ∧ ((∀ c ∈ L, s.bits.bit c = true) → t.result = 1#64) ∧
                ((∃ c ∈ L, s.bits.bit c = false) → t.result = 0#64)

/-- R233: while no `CLEAR`, window write or reset intervenes, a step only turns filter bits from 0 to 1, and only the end of an
`ADD` turns any. -/
def Obligations.OnlyAddChangesBitsAndOnlyUpward : Prop :=
  ∀ s t : State, s.quiet = true → step s = .next t →
    (∀ j, s.bits.bit j = true → t.bits.bit j = true) ∧
      (t.bits ≠ s.bits →
        s.status.busy = true ∧ t.status.busy = false ∧ ∃ i shape, decode s.lastcmd = .ok i ∧ (i, shape) ∈ addCommands)

/-- R238, no false negatives: after an `ADD` ends without error, however long the machine runs with no `CLEAR`, window write or
reset, a `TEST` of the same key under the same `SEED`, `K` and `M` that ends without error gives `RESULT = 1`. -/
def Obligations.NoFalseNegatives : Prop :=
  ∀ (i i' : Instr) (shape shape' : Shape) (s t u v : State),
    (i, shape) ∈ addCommands → (i', shape') ∈ testCommands → s.Running → exec i s = .next t → t.EndedOK →
      QuietRun t u → u.Running → SameKey shape s shape' u → s.k = u.k → s.m = u.m →
        exec i' u = .next v → v.EndedOK → v.result = 1#64

/-- `CLEAR`: every storage bit becomes 0, whatever the parameters, and nothing else changes but the command's end (R241). -/
def Obligations.ClearZeroesTheWholeStorage : Prop :=
  ∀ s : State, ∃ t, exec .clear s = .next t ∧ (∀ j, t.bits.bit j = false) ∧
    t = { s with status := { s.status with busy := false, done := true }, abortReq := false, bits := t.bits }

/-- R242: after a `CLEAR`, with no `ADD` or window write since, every `TEST` that ends without error gives 0. -/
def Obligations.TestAfterClearGivesZero : Prop :=
  ∀ (i : Instr) (shape : Shape) (s t u v : State),
    (i, shape) ∈ testCommands → exec .clear s = .next t → u.bits = t.bits → u.Running → exec i u = .next v →
      v.EndedOK → v.result = 0#64

/-- `POPCNT`: the number of set bits below `M`, which is at most `M`, in `RESULT`; nothing else changes (R246). -/
def Obligations.PopcntCountsTheFilterBits : Prop :=
  ∀ s : State, 8 ≤ s.m.toNat → s.m.toNat ≤ s.cfg.bitcap →
    ∃ t, exec .popcnt s = .next t ∧
      t = { s with
            status := { s.status with busy := false, done := true }, abortReq := false
            result := BitVec.ofNat 64 ((Finset.range s.m.toNat).filter fun j => s.bits.bit j = true).card } ∧
        t.result.toNat = ((Finset.range s.m.toNat).filter fun j => s.bits.bit j = true).card ∧
          t.result.toNat ≤ s.m.toNat

/-- R243, round trip: the window words read from an idle filter, written in order into an idle block with the same `M` and
`BITCAP`, give the same bits below `m`; and then every `TEST` gives the same `RESULT` in both. -/
def Obligations.ExportedWordsRestoreTheFilter : Prop :=
  ∀ (s d : State) (ws : List Word),
    s.cfg.legal = true → d.cfg = s.cfg → d.m = s.m → 8 ≤ s.m.toNat → s.m.toNat ≤ s.cfg.bitcap →
      s.status.busy = false → d.status.busy = false → ws.length = (s.m.toNat + 63) / 64 →
        (∀ w, w < ws.length → ∃ r, step { s with agenda := [rdBits w] } = .next r ∧ r.rdata = ws.getD w 0#64) →
          ∃ t, Host.Core.run Sys2Proof.core ws.length { d with agenda := writeBitWords 0 ws } = .next t ∧
            t = { d with agenda := [], bits := t.bits } ∧ (∀ j, j < s.m.toNat → t.bits.bit j = s.bits.bit j) ∧
              ∀ (i : Instr) (shape : Shape) (x y x' y' : State),
                (i, shape) ∈ testCommands → x.Running → y.Running → x.bits = s.bits → y.bits = t.bits →
                  x.m = s.m → y.m = s.m → x.k = y.k → SameKey shape x shape y → exec i x = .next x' →
                    exec i y = .next y' → x'.EndedOK → y'.EndedOK → x'.result = y'.result

/-! ### The bus -/

/-- R74: a misaligned read returns 0 and a misaligned write changes nothing; either sets `AERR` and does nothing else. -/
def Obligations.MisalignedAccessSetsAerrOnly : Prop :=
  ∀ (s : State) (addr : Addr) (rest : List Turn), addr.toNat % 8 ≠ 0 →
    (s.agenda = .read addr :: rest →
        step s = .next { s with agenda := rest, rdata := 0#64, status := { s.status with aerr := true } }) ∧
      ∀ v, s.agenda = .write addr v :: rest →
        step s = .next { s with agenda := rest, status := { s.status with aerr := true } }

/-- The reserved offsets, and the entries of a window beyond its parameter's count, read as zero and ignore writes, and set no
status bit (R71, R75). -/
def Obligations.UnmappedOffsetsReadZeroIgnoreWrites : Prop :=
  ∀ (s : State) (addr : Addr) (rest : List Turn), addr.toNat % 8 = 0 → s.cfg.legal = true →
    ((0x88 ≤ addr.toNat ∧ addr.toNat < 0x800) ∨
      (0x800 + 8 * s.cfg.kmax ≤ addr.toNat ∧ addr.toNat < 0x10000) ∨
        (0x10000 + s.cfg.keycap ≤ addr.toNat ∧ addr.toNat < 0x80000000) ∨
          0x80000000 + s.cfg.bitcap / 8 ≤ addr.toNat) →
      (s.agenda = .read addr :: rest → step s = .next { s with agenda := rest, rdata := 0#64 }) ∧
        ∀ v, s.agenda = .write addr v :: rest → step s = .next { s with agenda := rest }

/-- R76: writes to the read-only registers and to the index window are ignored and set no status bit. -/
def Obligations.ReadOnlyWritesAreIgnored : Prop :=
  ∀ (s : State) (addr : Addr) (v : Word) (rest : List Turn), s.agenda = .write addr v :: rest →
    (addr.toNat ∈ [0x00, 0x50, 0x58, 0x60, 0x68, 0x70, 0x78, 0x80] ∨
      ∃ j, j < s.cfg.kmax ∧ j < 256 ∧ addr.toNat = 0x800 + 8 * j) →
      step s = .next { s with agenda := rest }

/-- No aligned read changes anything but the read data, and, where the value read is unspecified (R93), the count of draws; two
idle reads of one offset in a row return the same value (R77). The read data and the count of draws are the model's own fields
(log entries 3 and 5). -/
def Obligations.ReadsHaveNoSideEffect : Prop :=
  ∀ (s : State) (addr : Addr) (rest : List Turn), addr.toNat % 8 = 0 →
    (s.agenda = .read addr :: rest →
        ∃ t, step s = .next t ∧ t = { s with agenda := rest, rdata := t.rdata, draws := t.draws }) ∧
      (s.agenda = .read addr :: .read addr :: rest → s.status.busy = false →
        ∃ t u, step s = .next t ∧ step t = .next u ∧ u.rdata = t.rdata)

/-- The six input registers store what is written while idle, all 64 bits, change nothing else, and read back (R41 to R46). -/
def Obligations.InputRegistersStoreAsWritten : Prop :=
  ∀ (s : State) (addr : Addr) (v : Word) (rest : List Turn),
    s.agenda = .write addr v :: .read addr :: rest → s.status.busy = false →
      (∀ r, (addr, r) ∈ [(0x20#32, { s with seed := v }), (0x28#32, { s with k := v }), (0x30#32, { s with m := v }),
              (0x38#32, { s with plim := v }), (0x40#32, { s with keylen := v }), (0x48#32, { s with keyval := v })] →
        ∃ t, step s = .next t ∧ t = { r with agenda := .read addr :: rest } ∧
          step t = .next { r with agenda := rest, rdata := v })

/-- R31 and R50: `ID` and the `CAP_*` registers read as their constants in every state, busy or idle. -/
def Obligations.ConstantRegistersRead : Prop :=
  ∀ (s : State) (addr : Addr) (rest : List Turn) (v : Word), s.agenda = .read addr :: rest →
    (addr, v) ∈ [(0x00#32, 0x4D33424600010007#64), (0x70#32, BitVec.ofNat 64 s.cfg.keycap),
        (0x78#32, BitVec.ofNat 64 s.cfg.kmax), (0x80#32, BitVec.ofNat 64 s.cfg.bitcap)] →
      step s = .next { s with agenda := rest, rdata := v }

/-- R32: the fields of `STATUS` as read, and the effect of a write to it, whatever `BUSY` is. -/
def Obligations.StatusReadsItsFieldsAndClearsByOnes : Prop :=
  ∀ (s : State) (rest : List Turn),
    (s.agenda = .read 0x08#32 :: rest →
        ∃ t, step s = .next t ∧ t = { s with agenda := rest, rdata := t.rdata } ∧
          t.rdata.getLsbD 0 = s.status.busy ∧ t.rdata.getLsbD 1 = s.status.done ∧ t.rdata.getLsbD 2 = s.status.err ∧
            t.rdata.getLsbD 3 = s.status.werr ∧ t.rdata.getLsbD 4 = s.status.aerr ∧
              (∀ b, b < 8 → t.rdata.getLsbD (8 + b) = s.status.errcode.getLsbD b) ∧
                ∀ b, (5 ≤ b ∧ b < 8) ∨ 16 ≤ b → t.rdata.getLsbD b = false) ∧
      ∀ v, s.agenda = .write 0x08#32 v :: rest →
        step s = .next
          { s with
            agenda := rest
            status :=
              { busy := s.status.busy
                done := s.status.done && !v.getLsbD 1
                err := s.status.err && !v.getLsbD 2
                werr := s.status.werr && !v.getLsbD 3
                aerr := s.status.aerr && !v.getLsbD 4
                errcode := s.status.errcode } }

/-- R40: `INTEN` stores its three bits whatever `BUSY` is, and reads them back with every other bit 0. -/
def Obligations.IntenStoresThreeBits : Prop :=
  ∀ (s : State) (v : Word) (rest : List Turn), s.agenda = .write 0x18#32 v :: .read 0x18#32 :: rest →
    ∃ t, step s = .next t ∧
      t = { s with
            agenda := .read 0x18#32 :: rest
            inten := { doneie := v.getLsbD 0, errie := v.getLsbD 1, hosterrie := v.getLsbD 2 } } ∧
        step t = .next { t with agenda := rest, rdata := v &&& 7#64 }

/-- R79: the key buffer window, byte by byte: a write while idle, a dropped write while busy, a read at any time. -/
def Obligations.KeyBufferWindowIsLittleEndian : Prop :=
  ∀ (s : State) (addr : Addr) (j : Nat) (rest : List Turn), s.cfg.legal = true → j < s.cfg.keycap / 8 →
    addr.toNat = 0x10000 + 8 * j →
      (∀ v, s.agenda = .write addr v :: rest → s.status.busy = false →
          ∃ t, step s = .next t ∧ t = { s with agenda := rest, keybuf := t.keybuf } ∧
            ∀ a, t.keybuf.byte a =
              if a / 8 = j then BitVec.ofNat 8 (v.toNat / 2 ^ (8 * (a % 8))) else s.keybuf.byte a) ∧
        (∀ v, s.agenda = .write addr v :: rest → s.status.busy = true →
          step s = .next { s with agenda := rest, status := { s.status with werr := true } }) ∧
          (s.agenda = .read addr :: rest →
            ∃ t, step s = .next t ∧ t = { s with agenda := rest, rdata := t.rdata } ∧
              ∀ b, b < 8 → t.rdata.toNat / 2 ^ (8 * b) % 256 = (s.keybuf.byte (8 * j + b)).toNat)

/-- R80: the bit-array window, bit by bit, masked by `min(M, BITCAP)` at the time of the access; busy accesses. That
the unspecified value of a busy read is `Config.freeWord` of a fresh draw is the model's choice (log entry 5). -/
def Obligations.BitWindowIsMaskedByM : Prop :=
  ∀ (s : State) (addr : Addr) (w : Nat) (rest : List Turn), w < s.cfg.bitcap / 64 →
    addr.toNat = 0x80000000 + 8 * w →
      (∀ v, s.agenda = .write addr v :: rest → s.status.busy = false →
          ∃ t, step s = .next t ∧ t = { s with agenda := rest, bits := t.bits } ∧
            ∀ j, t.bits.bit j =
              if j / 64 = w then v.getLsbD (j % 64) && decide (j < min s.m.toNat s.cfg.bitcap) else s.bits.bit j) ∧
        (∀ v, s.agenda = .write addr v :: rest → s.status.busy = true →
          step s = .next { s with agenda := rest, status := { s.status with werr := true } }) ∧
          (s.agenda = .read addr :: rest → s.status.busy = false →
            ∃ t, step s = .next t ∧ t = { s with agenda := rest, rdata := t.rdata } ∧
              ∀ b, b < 64 →
                t.rdata.getLsbD b = (s.bits.bit (64 * w + b) && decide (64 * w + b < min s.m.toNat s.cfg.bitcap))) ∧
            (s.agenda = .read addr :: rest → s.status.busy = true →
              step s = .next { s with agenda := rest, rdata := Config.freeWord s.draws 0, draws := s.draws + 1 })

/-- R82: the index window reads `IDX[i]` while idle, an unspecified value while busy, and ignores writes. That the
unspecified value is `Config.freeWord` of a fresh draw is the model's choice (log entry 5). -/
def Obligations.IndexWindowIsReadOnly : Prop :=
  ∀ (s : State) (addr : Addr) (i : Nat) (rest : List Turn), s.cfg.legal = true → i < s.cfg.kmax →
    addr.toNat = 0x800 + 8 * i →
      (s.agenda = .read addr :: rest → s.status.busy = false →
          step s = .next { s with agenda := rest, rdata := s.idx.word i }) ∧
        (s.agenda = .read addr :: rest → s.status.busy = true →
          step s = .next { s with agenda := rest, rdata := Config.freeWord s.draws 0, draws := s.draws + 1 }) ∧
          ∀ v, s.agenda = .write addr v :: rest → step s = .next { s with agenda := rest }

/-- R92: while busy a write to an input register, the key buffer window or the bit-array window is ignored and sets `WERR`. -/
def Obligations.BusyInputWritesAreDropped : Prop :=
  ∀ (s : State) (addr : Addr) (v : Word) (rest : List Turn), s.cfg.legal = true → s.status.busy = true →
    s.agenda = .write addr v :: rest →
      (addr.toNat ∈ [0x20, 0x28, 0x30, 0x38, 0x40, 0x48] ∨
        (∃ j, j < s.cfg.keycap / 8 ∧ addr.toNat = 0x10000 + 8 * j) ∨
          ∃ w, w < s.cfg.bitcap / 64 ∧ addr.toNat = 0x80000000 + 8 * w) →
        step s = .next { s with agenda := rest, status := { s.status with werr := true } }

/-- What a read of an output register returns: its value while idle (R47 to R49, R72), while busy a free draw (R93). Reads of
`CMD`, which gives `LASTCMD` (R39), and of the input registers return their values busy or idle. No such read changes anything
else. The free value is whatever `Config.freeWord` is, and its form is the model's choice (log entry 5). -/
def Obligations.RegisterReadsIdleAndBusy : Prop :=
  ∀ (s : State) (addr : Addr) (rest : List Turn), s.agenda = .read addr :: rest →
    (s.status.busy = false →
        ∀ v, (addr, v) ∈ [(0x50#32, s.h1), (0x58#32, s.h2), (0x60#32, s.result), (0x68#32, s.probes)] →
          step s = .next { s with agenda := rest, rdata := v }) ∧
      (s.status.busy = true → addr.toNat ∈ [0x50, 0x58, 0x60, 0x68] →
        step s = .next { s with agenda := rest, rdata := Config.freeWord s.draws 0, draws := s.draws + 1 }) ∧
        ∀ v, (addr, v) ∈ [(0x10#32, s.lastcmd), (0x20#32, s.seed), (0x28#32, s.k), (0x30#32, s.m), (0x38#32, s.plim),
                (0x40#32, s.keylen), (0x48#32, s.keyval)] →
          step s = .next { s with agenda := rest, rdata := v }

/-- R273: the interrupt output, from the words the host reads at `STATUS` and `INTEN`. -/
def Obligations.IrqFollowsStatusAndInten : Prop :=
  ∀ s : State,
    irq s =
      ((s.status.toWord.getLsbD 1 && s.inten.toWord.getLsbD 0) || (s.status.toWord.getLsbD 2 && s.inten.toWord.getLsbD 1) ||
        ((s.status.toWord.getLsbD 3 || s.status.toWord.getLsbD 4) && s.inten.toWord.getLsbD 2))

/-! ### Whole-machine rules -/

/-- While a command runs and does not end, no step but reset changes an input register, the key buffer, the bits, `cur` or any
output (R89, R132, R133). -/
def Obligations.NothingMovesUnderARunningCommand : Prop :=
  ∀ s t : State, s.status.busy = true → t.status.busy = true → step s = .next t →
    t.seed = s.seed ∧ t.k = s.k ∧ t.m = s.m ∧ t.plim = s.plim ∧ t.keylen = s.keylen ∧ t.keyval = s.keyval ∧
      t.keybuf = s.keybuf ∧ t.bits = s.bits ∧ t.lastcmd = s.lastcmd ∧ t.idx = s.idx ∧ t.h1 = s.h1 ∧ t.h2 = s.h2 ∧
        t.result = s.result ∧ t.probes = s.probes

/-- `LASTCMD` changes only when an idle block's `CMD` is written with a word other than `ABORT`, or by reset (R39). -/
def Obligations.LastCommandChangesOnlyAtAStart : Prop :=
  ∀ s t : State, step s = .next t → t.lastcmd ≠ s.lastcmd →
    (∃ v rest, s.agenda = .write 0x10#32 v :: rest ∧ s.status.busy = false ∧ v ≠ 0x00F#64 ∧ t.lastcmd = v) ∨
      ∃ rest, s.agenda = .reset :: rest ∧ t.lastcmd = 0#64

/-- R56: a step that changes `STATUS` is a command's start, a command's end, a write to `STATUS`, a dropped write, a misaligned
access or reset. -/
def Obligations.StatusChangesOnlyForItsReasons : Prop :=
  ∀ s t : State, step s = .next t → t.status ≠ s.status →
    (s.status.busy = false ∧ t.status.busy = true ∧ ∃ v rest, s.agenda = .write 0x10#32 v :: rest) ∨
      (s.status.busy = true ∧ t.status.busy = false ∧ t.status.done = true) ∨
        (∃ v rest, s.agenda = .write 0x08#32 v :: rest) ∨
          (s.status.busy = true ∧ t.status = { s.status with werr := true } ∧ ∃ a v rest, s.agenda = .write a v :: rest) ∨
            (t.status = { s.status with aerr := true } ∧
              ∃ a : Addr, a.toNat % 8 ≠ 0 ∧ ∃ rest, s.agenda = .read a :: rest ∨ ∃ v, s.agenda = .write a v :: rest) ∨
              ∃ rest, s.agenda = .reset :: rest

/-- No step changes the implementation parameters: the `CAP_*` registers are constants (R50). -/
def Obligations.ParametersAreConstant : Prop := ∀ s t : State, step s = .next t → t.cfg = s.cfg

/-! ### Reset -/

/-- R290: reset puts every register at its reset value, whatever the engine was doing, and leaves the parameters alone. -/
def Obligations.ResetPutsRegistersAtTheirResetValues : Prop :=
  ∀ (s : State) (rest : List Turn), s.agenda = .reset :: rest →
    ∃ t, step s = .next t ∧ t.status.toWord = 0#64 ∧ t.inten.toWord = 0#64 ∧ irq t = false ∧ t.seed = 0#64 ∧ t.k = 0#64 ∧
      t.m = 0#64 ∧ t.plim = 0#64 ∧ t.keylen = 0#64 ∧ t.keyval = 0#64 ∧ t.h1 = 0#64 ∧ t.h2 = 0#64 ∧ t.result = 0#64 ∧
        t.probes = 0#64 ∧ t.lastcmd = 0#64 ∧ t.abortReq = false ∧ t.cfg = s.cfg ∧ t.agenda = rest

/-- R292: after reset the three arrays hold fresh free draws, neither zero nor what they held; and the bit window reads 0 until
`M` is written. The draws are free values, whatever `Config.freeByte` is (log entry 4). -/
def Obligations.ResetLeavesTheArraysFree : Prop :=
  ∀ (s : State) (rest : List Turn), s.agenda = .reset :: rest →
    ∃ t, step s = .next t ∧ (∀ a, t.idx.byte a = Config.freeByte s.draws a) ∧
      (∀ a, t.keybuf.byte a = Config.freeByte (s.draws + 1) a) ∧ (∀ a, t.bits.byte a = Config.freeByte (s.draws + 2) a) ∧
        t.draws = s.draws + 3 ∧ ∀ w, readRegion (.bits w) t = 0#64

/-! ### The invariant -/

/-- The machine after its first reset meets the invariant (R290; the model's own fields: log entries 3 and 4). -/
def Obligations.ResetStateMeetsTheInvariant : Prop := State.reset.Inv

/-- Every step keeps the invariant: the arrays keep their canonical form inside their storage, `DONE`, `ERR` and `ERRCODE` are
clear while busy, no code beyond 4 is produced, an abort is requested only of a running command, `ABORT` is never latched, and
`RESULT` is at most `BITCAP` (R6, R34, R35, R38, R51 to R53, R55, R140, R246). The canonical form and the draws are the model's
own (log entry 4). -/
def Obligations.StepKeepsTheInvariant : Prop := ∀ s t : State, s.Inv → step s = .next t → t.Inv
end

