-- ==== Sys2Proof/Laws/Generation.lean ====
section
/-! SUPPORT. The laws of index generation: what acceptance does to the list, and once, all the loop can answer. -/

namespace Sys2Proof.Machine

theorem mem_accept {L : List Nat} {c x : Nat} : x ∈ accept L c ↔ x ∈ L ∨ x = c := by
  unfold accept
  split
  · next h => exact ⟨Or.inl, fun o => o.elim id (fun e => e ▸ h)⟩
  · simp

theorem nodup_accept {L : List Nat} (c : Nat) (h : L.Nodup) : (accept L c).Nodup := by
  unfold accept
  split
  · exact h
  · next hc => exact List.Nodup.append h (List.nodup_singleton c) (by simpa using hc)

theorem length_accept_le (L : List Nat) (c : Nat) : (accept L c).length ≤ L.length + 1 := by
  unfold accept
  split <;> simp

theorem length_le_accept (L : List Nat) (c : Nat) : L.length ≤ (accept L c).length := by
  unfold accept
  split <;> simp

theorem candidate_lt {m : Nat} (h : Word) (hm : 0 < m) : candidate m h < m := Nat.mod_lt _ hm

/-- The masked candidate is the remainder of the word's low 63 bits (R202). -/
theorem candidate_eq_mod (m : Nat) (h : Word) : candidate m h = h.toNat % 2 ^ 63 % m := by
  have : (h &&& mask63).toNat = h.toNat % 2 ^ 63 := by
    rw [BitVec.toNat_and, show mask63.toNat = 2 ^ 63 - 1 by decide, Nat.and_two_pow_sub_one_eq_mod]
  rw [candidate, this]

/-- Where the loop answers `OK`, the list has `k` entries, none twice, each below `m` (R201, R203). -/
theorem hashesLoop_ok {h2 plim p' : Word} {k m : Nat} {L' : List Nat} (hm : 0 < m) :
    ∀ {fuel : Nat} {h p : Word} {L : List Nat}, hashesLoop h2 k m plim fuel h p L = .ok L' p' →
      L.length ≤ k → L.Nodup → (∀ c ∈ L, c < m) → L'.length = k ∧ L'.Nodup ∧ ∀ c ∈ L', c < m
  | 0, _, _, _, e, _, _, _ => by simp [hashesLoop] at e
  | fuel + 1, h, p, L, e, hl, hn, hb => by
    unfold hashesLoop at e
    split at e
    · next hk =>
      simp only [Generation.ok.injEq] at e
      obtain ⟨rfl, -⟩ := e
      exact ⟨by omega, hn, hb⟩
    · next hk =>
      split at e
      · simp at e
      · have := length_accept_le L (candidate m h)
        refine hashesLoop_ok hm e (by omega) (nodup_accept _ hn) fun c hc => ?_
        rcases mem_accept.1 hc with hc | rfl
        · exact hb c hc
        · exact candidate_lt h hm

/-- Where the loop answers `EXHAUSTED`, there is a limit and it is the probe count (R204). -/
theorem hashesLoop_exhausted {h2 plim p' : Word} {k m : Nat} :
    ∀ {fuel : Nat} {h p : Word} {L : List Nat}, hashesLoop h2 k m plim fuel h p L = .exhausted p' →
      plim ≠ 0#64 ∧ p' = plim
  | 0, _, _, _, e => by simp [hashesLoop] at e
  | fuel + 1, h, p, L, e => by
    unfold hashesLoop at e
    split at e
    · simp at e
    · split at e
      · next hp =>
        simp only [Generation.exhausted.injEq] at e
        exact ⟨hp.1, e ▸ hp.2⟩
      · exact hashesLoop_exhausted e

/-- A generation that answers `OK` comes from the loop (R201). -/
theorem hashes_ok_loop {h1 h2 plim p : Word} {k m : Nat} {L : List Nat} (h : hashes h1 h2 k m plim = .ok L p) :
    hashesLoop h2 k m plim (2 ^ 64 + 1) h1 0#64 [] = .ok L p := by
  unfold hashes at h
  split at h
  · exact h
  · split at h <;> simp at h

theorem hashes_ok_length {h1 h2 plim p : Word} {k m : Nat} {L : List Nat} (hm : 0 < m)
    (h : hashes h1 h2 k m plim = .ok L p) : L.length = k :=
  (hashesLoop_ok hm (hashes_ok_loop h) (by simp) (by simp) (by simp)).1

theorem hashes_ok_lt {h1 h2 plim p : Word} {k m : Nat} {L : List Nat} (hm : 0 < m)
    (h : hashes h1 h2 k m plim = .ok L p) : ∀ c ∈ L, c < m :=
  (hashesLoop_ok hm (hashes_ok_loop h) (by simp) (by simp) (by simp)).2.2

end Sys2Proof.Machine
end

