-- ==== Sys2Proof/Laws/State.lean ====
section
/-! SUPPORT. One lemma per field per update of the state, true by `rfl`, so that no proof unfolds a record update. -/

namespace Sys2Proof.Machine

/-! ### `startCommand` (R131) -/

@[simp] theorem startCommand_cfg (v : Word) (s : State) : (startCommand v s).cfg = s.cfg := rfl
@[simp] theorem startCommand_status (v : Word) (s : State) :
    (startCommand v s).status = { s.status with busy := true, done := false, err := false, errcode := 0 } := rfl
@[simp] theorem startCommand_lastcmd (v : Word) (s : State) : (startCommand v s).lastcmd = v := rfl
@[simp] theorem startCommand_inten (v : Word) (s : State) : (startCommand v s).inten = s.inten := rfl
@[simp] theorem startCommand_seed (v : Word) (s : State) : (startCommand v s).seed = s.seed := rfl
@[simp] theorem startCommand_k (v : Word) (s : State) : (startCommand v s).k = s.k := rfl
@[simp] theorem startCommand_m (v : Word) (s : State) : (startCommand v s).m = s.m := rfl
@[simp] theorem startCommand_plim (v : Word) (s : State) : (startCommand v s).plim = s.plim := rfl
@[simp] theorem startCommand_keylen (v : Word) (s : State) : (startCommand v s).keylen = s.keylen := rfl
@[simp] theorem startCommand_keyval (v : Word) (s : State) : (startCommand v s).keyval = s.keyval := rfl
@[simp] theorem startCommand_h1 (v : Word) (s : State) : (startCommand v s).h1 = s.h1 := rfl
@[simp] theorem startCommand_h2 (v : Word) (s : State) : (startCommand v s).h2 = s.h2 := rfl
@[simp] theorem startCommand_result (v : Word) (s : State) : (startCommand v s).result = s.result := rfl
@[simp] theorem startCommand_probes (v : Word) (s : State) : (startCommand v s).probes = s.probes := rfl
@[simp] theorem startCommand_idx (v : Word) (s : State) : (startCommand v s).idx = s.idx := rfl
@[simp] theorem startCommand_keybuf (v : Word) (s : State) : (startCommand v s).keybuf = s.keybuf := rfl
@[simp] theorem startCommand_bits (v : Word) (s : State) : (startCommand v s).bits = s.bits := rfl
@[simp] theorem startCommand_abortReq (v : Word) (s : State) : (startCommand v s).abortReq = false := rfl
@[simp] theorem startCommand_rdata (v : Word) (s : State) : (startCommand v s).rdata = s.rdata := rfl
@[simp] theorem startCommand_draws (v : Word) (s : State) : (startCommand v s).draws = s.draws := rfl
@[simp] theorem startCommand_agenda (v : Word) (s : State) : (startCommand v s).agenda = s.agenda := rfl

/-! ### `complete` (R134) -/

@[simp] theorem complete_cfg (s : State) : (complete s).cfg = s.cfg := rfl
@[simp] theorem complete_status (s : State) : (complete s).status = { s.status with busy := false, done := true } := rfl
@[simp] theorem complete_lastcmd (s : State) : (complete s).lastcmd = s.lastcmd := rfl
@[simp] theorem complete_inten (s : State) : (complete s).inten = s.inten := rfl
@[simp] theorem complete_seed (s : State) : (complete s).seed = s.seed := rfl
@[simp] theorem complete_k (s : State) : (complete s).k = s.k := rfl
@[simp] theorem complete_m (s : State) : (complete s).m = s.m := rfl
@[simp] theorem complete_plim (s : State) : (complete s).plim = s.plim := rfl
@[simp] theorem complete_keylen (s : State) : (complete s).keylen = s.keylen := rfl
@[simp] theorem complete_keyval (s : State) : (complete s).keyval = s.keyval := rfl
@[simp] theorem complete_h1 (s : State) : (complete s).h1 = s.h1 := rfl
@[simp] theorem complete_h2 (s : State) : (complete s).h2 = s.h2 := rfl
@[simp] theorem complete_result (s : State) : (complete s).result = s.result := rfl
@[simp] theorem complete_probes (s : State) : (complete s).probes = s.probes := rfl
@[simp] theorem complete_idx (s : State) : (complete s).idx = s.idx := rfl
@[simp] theorem complete_keybuf (s : State) : (complete s).keybuf = s.keybuf := rfl
@[simp] theorem complete_bits (s : State) : (complete s).bits = s.bits := rfl
@[simp] theorem complete_abortReq (s : State) : (complete s).abortReq = false := rfl
@[simp] theorem complete_rdata (s : State) : (complete s).rdata = s.rdata := rfl
@[simp] theorem complete_draws (s : State) : (complete s).draws = s.draws := rfl
@[simp] theorem complete_agenda (s : State) : (complete s).agenda = s.agenda := rfl

/-! ### `raise` (R135) -/

@[simp] theorem raise_cfg (e : Error) (s : State) : (raise e s).cfg = s.cfg := rfl
@[simp] theorem raise_status (e : Error) (s : State) :
    (raise e s).status = { s.status with busy := false, done := true, err := true, errcode := e.code } := rfl
@[simp] theorem raise_lastcmd (e : Error) (s : State) : (raise e s).lastcmd = s.lastcmd := rfl
@[simp] theorem raise_inten (e : Error) (s : State) : (raise e s).inten = s.inten := rfl
@[simp] theorem raise_seed (e : Error) (s : State) : (raise e s).seed = s.seed := rfl
@[simp] theorem raise_k (e : Error) (s : State) : (raise e s).k = s.k := rfl
@[simp] theorem raise_m (e : Error) (s : State) : (raise e s).m = s.m := rfl
@[simp] theorem raise_plim (e : Error) (s : State) : (raise e s).plim = s.plim := rfl
@[simp] theorem raise_keylen (e : Error) (s : State) : (raise e s).keylen = s.keylen := rfl
@[simp] theorem raise_keyval (e : Error) (s : State) : (raise e s).keyval = s.keyval := rfl
@[simp] theorem raise_h1 (e : Error) (s : State) : (raise e s).h1 = s.h1 := rfl
@[simp] theorem raise_h2 (e : Error) (s : State) : (raise e s).h2 = s.h2 := rfl
@[simp] theorem raise_result (e : Error) (s : State) : (raise e s).result = s.result := rfl
@[simp] theorem raise_probes (e : Error) (s : State) : (raise e s).probes = s.probes := rfl
@[simp] theorem raise_idx (e : Error) (s : State) : (raise e s).idx = s.idx := rfl
@[simp] theorem raise_keybuf (e : Error) (s : State) : (raise e s).keybuf = s.keybuf := rfl
@[simp] theorem raise_bits (e : Error) (s : State) : (raise e s).bits = s.bits := rfl
@[simp] theorem raise_abortReq (e : Error) (s : State) : (raise e s).abortReq = false := rfl
@[simp] theorem raise_rdata (e : Error) (s : State) : (raise e s).rdata = s.rdata := rfl
@[simp] theorem raise_draws (e : Error) (s : State) : (raise e s).draws = s.draws := rfl
@[simp] theorem raise_agenda (e : Error) (s : State) : (raise e s).agenda = s.agenda := rfl

/-! ### `dropWrite` (R92) -/

@[simp] theorem dropWrite_cfg (s : State) : (dropWrite s).cfg = s.cfg := rfl
@[simp] theorem dropWrite_status (s : State) : (dropWrite s).status = { s.status with werr := true } := rfl
@[simp] theorem dropWrite_lastcmd (s : State) : (dropWrite s).lastcmd = s.lastcmd := rfl
@[simp] theorem dropWrite_inten (s : State) : (dropWrite s).inten = s.inten := rfl
@[simp] theorem dropWrite_seed (s : State) : (dropWrite s).seed = s.seed := rfl
@[simp] theorem dropWrite_k (s : State) : (dropWrite s).k = s.k := rfl
@[simp] theorem dropWrite_m (s : State) : (dropWrite s).m = s.m := rfl
@[simp] theorem dropWrite_plim (s : State) : (dropWrite s).plim = s.plim := rfl
@[simp] theorem dropWrite_keylen (s : State) : (dropWrite s).keylen = s.keylen := rfl
@[simp] theorem dropWrite_keyval (s : State) : (dropWrite s).keyval = s.keyval := rfl
@[simp] theorem dropWrite_h1 (s : State) : (dropWrite s).h1 = s.h1 := rfl
@[simp] theorem dropWrite_h2 (s : State) : (dropWrite s).h2 = s.h2 := rfl
@[simp] theorem dropWrite_result (s : State) : (dropWrite s).result = s.result := rfl
@[simp] theorem dropWrite_probes (s : State) : (dropWrite s).probes = s.probes := rfl
@[simp] theorem dropWrite_idx (s : State) : (dropWrite s).idx = s.idx := rfl
@[simp] theorem dropWrite_keybuf (s : State) : (dropWrite s).keybuf = s.keybuf := rfl
@[simp] theorem dropWrite_bits (s : State) : (dropWrite s).bits = s.bits := rfl
@[simp] theorem dropWrite_abortReq (s : State) : (dropWrite s).abortReq = s.abortReq := rfl
@[simp] theorem dropWrite_rdata (s : State) : (dropWrite s).rdata = s.rdata := rfl
@[simp] theorem dropWrite_draws (s : State) : (dropWrite s).draws = s.draws := rfl
@[simp] theorem dropWrite_agenda (s : State) : (dropWrite s).agenda = s.agenda := rfl

/-! ### `flagMisaligned` (R74) -/

@[simp] theorem flagMisaligned_cfg (s : State) : (flagMisaligned s).cfg = s.cfg := rfl
@[simp] theorem flagMisaligned_status (s : State) : (flagMisaligned s).status = { s.status with aerr := true } := rfl
@[simp] theorem flagMisaligned_lastcmd (s : State) : (flagMisaligned s).lastcmd = s.lastcmd := rfl
@[simp] theorem flagMisaligned_inten (s : State) : (flagMisaligned s).inten = s.inten := rfl
@[simp] theorem flagMisaligned_seed (s : State) : (flagMisaligned s).seed = s.seed := rfl
@[simp] theorem flagMisaligned_k (s : State) : (flagMisaligned s).k = s.k := rfl
@[simp] theorem flagMisaligned_m (s : State) : (flagMisaligned s).m = s.m := rfl
@[simp] theorem flagMisaligned_plim (s : State) : (flagMisaligned s).plim = s.plim := rfl
@[simp] theorem flagMisaligned_keylen (s : State) : (flagMisaligned s).keylen = s.keylen := rfl
@[simp] theorem flagMisaligned_keyval (s : State) : (flagMisaligned s).keyval = s.keyval := rfl
@[simp] theorem flagMisaligned_h1 (s : State) : (flagMisaligned s).h1 = s.h1 := rfl
@[simp] theorem flagMisaligned_h2 (s : State) : (flagMisaligned s).h2 = s.h2 := rfl
@[simp] theorem flagMisaligned_result (s : State) : (flagMisaligned s).result = s.result := rfl
@[simp] theorem flagMisaligned_probes (s : State) : (flagMisaligned s).probes = s.probes := rfl
@[simp] theorem flagMisaligned_idx (s : State) : (flagMisaligned s).idx = s.idx := rfl
@[simp] theorem flagMisaligned_keybuf (s : State) : (flagMisaligned s).keybuf = s.keybuf := rfl
@[simp] theorem flagMisaligned_bits (s : State) : (flagMisaligned s).bits = s.bits := rfl
@[simp] theorem flagMisaligned_abortReq (s : State) : (flagMisaligned s).abortReq = s.abortReq := rfl
@[simp] theorem flagMisaligned_rdata (s : State) : (flagMisaligned s).rdata = s.rdata := rfl
@[simp] theorem flagMisaligned_draws (s : State) : (flagMisaligned s).draws = s.draws := rfl
@[simp] theorem flagMisaligned_agenda (s : State) : (flagMisaligned s).agenda = s.agenda := rfl

/-! ### `resetStep` (R290) -/

@[simp] theorem resetStep_cfg (s : State) : (resetStep s).cfg = s.cfg := rfl
@[simp] theorem resetStep_status (s : State) : (resetStep s).status = Status.reset := rfl
@[simp] theorem resetStep_lastcmd (s : State) : (resetStep s).lastcmd = 0 := rfl
@[simp] theorem resetStep_inten (s : State) : (resetStep s).inten = Inten.reset := rfl
@[simp] theorem resetStep_seed (s : State) : (resetStep s).seed = 0 := rfl
@[simp] theorem resetStep_k (s : State) : (resetStep s).k = 0 := rfl
@[simp] theorem resetStep_m (s : State) : (resetStep s).m = 0 := rfl
@[simp] theorem resetStep_plim (s : State) : (resetStep s).plim = 0 := rfl
@[simp] theorem resetStep_keylen (s : State) : (resetStep s).keylen = 0 := rfl
@[simp] theorem resetStep_keyval (s : State) : (resetStep s).keyval = 0 := rfl
@[simp] theorem resetStep_h1 (s : State) : (resetStep s).h1 = 0 := rfl
@[simp] theorem resetStep_h2 (s : State) : (resetStep s).h2 = 0 := rfl
@[simp] theorem resetStep_result (s : State) : (resetStep s).result = 0 := rfl
@[simp] theorem resetStep_probes (s : State) : (resetStep s).probes = 0 := rfl
@[simp] theorem resetStep_idx (s : State) : (resetStep s).idx = { fill := .free s.draws, cells := [] } := rfl
@[simp] theorem resetStep_keybuf (s : State) :
    (resetStep s).keybuf = { fill := .free (s.draws + 1), cells := [] } := rfl
@[simp] theorem resetStep_bits (s : State) : (resetStep s).bits = { fill := .free (s.draws + 2), cells := [] } := rfl
@[simp] theorem resetStep_abortReq (s : State) : (resetStep s).abortReq = false := rfl
@[simp] theorem resetStep_rdata (s : State) : (resetStep s).rdata = s.rdata := rfl
@[simp] theorem resetStep_draws (s : State) : (resetStep s).draws = s.draws + 3 := rfl
@[simp] theorem resetStep_agenda (s : State) : (resetStep s).agenda = s.agenda := rfl

/-! ### `writeDigest` (R177) -/

@[simp] theorem writeDigest_cfg (d : Word × Word) (s : State) : (writeDigest d s).cfg = s.cfg := rfl
@[simp] theorem writeDigest_status (d : Word × Word) (s : State) : (writeDigest d s).status = s.status := rfl
@[simp] theorem writeDigest_lastcmd (d : Word × Word) (s : State) : (writeDigest d s).lastcmd = s.lastcmd := rfl
@[simp] theorem writeDigest_inten (d : Word × Word) (s : State) : (writeDigest d s).inten = s.inten := rfl
@[simp] theorem writeDigest_seed (d : Word × Word) (s : State) : (writeDigest d s).seed = s.seed := rfl
@[simp] theorem writeDigest_k (d : Word × Word) (s : State) : (writeDigest d s).k = s.k := rfl
@[simp] theorem writeDigest_m (d : Word × Word) (s : State) : (writeDigest d s).m = s.m := rfl
@[simp] theorem writeDigest_plim (d : Word × Word) (s : State) : (writeDigest d s).plim = s.plim := rfl
@[simp] theorem writeDigest_keylen (d : Word × Word) (s : State) : (writeDigest d s).keylen = s.keylen := rfl
@[simp] theorem writeDigest_keyval (d : Word × Word) (s : State) : (writeDigest d s).keyval = s.keyval := rfl
@[simp] theorem writeDigest_h1 (d : Word × Word) (s : State) : (writeDigest d s).h1 = d.1 := rfl
@[simp] theorem writeDigest_h2 (d : Word × Word) (s : State) : (writeDigest d s).h2 = d.2 := rfl
@[simp] theorem writeDigest_result (d : Word × Word) (s : State) : (writeDigest d s).result = s.result := rfl
@[simp] theorem writeDigest_probes (d : Word × Word) (s : State) : (writeDigest d s).probes = s.probes := rfl
@[simp] theorem writeDigest_idx (d : Word × Word) (s : State) : (writeDigest d s).idx = s.idx := rfl
@[simp] theorem writeDigest_keybuf (d : Word × Word) (s : State) : (writeDigest d s).keybuf = s.keybuf := rfl
@[simp] theorem writeDigest_bits (d : Word × Word) (s : State) : (writeDigest d s).bits = s.bits := rfl
@[simp] theorem writeDigest_abortReq (d : Word × Word) (s : State) : (writeDigest d s).abortReq = s.abortReq := rfl
@[simp] theorem writeDigest_rdata (d : Word × Word) (s : State) : (writeDigest d s).rdata = s.rdata := rfl
@[simp] theorem writeDigest_draws (d : Word × Word) (s : State) : (writeDigest d s).draws = s.draws := rfl
@[simp] theorem writeDigest_agenda (d : Word × Word) (s : State) : (writeDigest d s).agenda = s.agenda := rfl

/-! ### `writeIndices` (R207) -/

@[simp] theorem writeIndices_cfg (L : List Nat) (p : Word) (s : State) : (writeIndices L p s).cfg = s.cfg := rfl
@[simp] theorem writeIndices_status (L : List Nat) (p : Word) (s : State) :
    (writeIndices L p s).status = s.status := rfl
@[simp] theorem writeIndices_lastcmd (L : List Nat) (p : Word) (s : State) :
    (writeIndices L p s).lastcmd = s.lastcmd := rfl
@[simp] theorem writeIndices_inten (L : List Nat) (p : Word) (s : State) : (writeIndices L p s).inten = s.inten := rfl
@[simp] theorem writeIndices_seed (L : List Nat) (p : Word) (s : State) : (writeIndices L p s).seed = s.seed := rfl
@[simp] theorem writeIndices_k (L : List Nat) (p : Word) (s : State) : (writeIndices L p s).k = s.k := rfl
@[simp] theorem writeIndices_m (L : List Nat) (p : Word) (s : State) : (writeIndices L p s).m = s.m := rfl
@[simp] theorem writeIndices_plim (L : List Nat) (p : Word) (s : State) : (writeIndices L p s).plim = s.plim := rfl
@[simp] theorem writeIndices_keylen (L : List Nat) (p : Word) (s : State) :
    (writeIndices L p s).keylen = s.keylen := rfl
@[simp] theorem writeIndices_keyval (L : List Nat) (p : Word) (s : State) :
    (writeIndices L p s).keyval = s.keyval := rfl
@[simp] theorem writeIndices_h1 (L : List Nat) (p : Word) (s : State) : (writeIndices L p s).h1 = s.h1 := rfl
@[simp] theorem writeIndices_h2 (L : List Nat) (p : Word) (s : State) : (writeIndices L p s).h2 = s.h2 := rfl
@[simp] theorem writeIndices_result (L : List Nat) (p : Word) (s : State) :
    (writeIndices L p s).result = s.result := rfl
@[simp] theorem writeIndices_probes (L : List Nat) (p : Word) (s : State) : (writeIndices L p s).probes = p := rfl
@[simp] theorem writeIndices_idx (L : List Nat) (p : Word) (s : State) :
    (writeIndices L p s).idx = storeIndices s.idx 0 L := rfl
@[simp] theorem writeIndices_keybuf (L : List Nat) (p : Word) (s : State) :
    (writeIndices L p s).keybuf = s.keybuf := rfl
@[simp] theorem writeIndices_bits (L : List Nat) (p : Word) (s : State) : (writeIndices L p s).bits = s.bits := rfl
@[simp] theorem writeIndices_abortReq (L : List Nat) (p : Word) (s : State) :
    (writeIndices L p s).abortReq = s.abortReq := rfl
@[simp] theorem writeIndices_rdata (L : List Nat) (p : Word) (s : State) : (writeIndices L p s).rdata = s.rdata := rfl
@[simp] theorem writeIndices_draws (L : List Nat) (p : Word) (s : State) : (writeIndices L p s).draws = s.draws := rfl
@[simp] theorem writeIndices_agenda (L : List Nat) (p : Word) (s : State) :
    (writeIndices L p s).agenda = s.agenda := rfl

/-! ### `writeExhausted` (R265) -/

@[simp] theorem writeExhausted_cfg (p : Word) (s : State) : (writeExhausted p s).cfg = s.cfg := rfl
@[simp] theorem writeExhausted_status (p : Word) (s : State) : (writeExhausted p s).status = s.status := rfl
@[simp] theorem writeExhausted_lastcmd (p : Word) (s : State) : (writeExhausted p s).lastcmd = s.lastcmd := rfl
@[simp] theorem writeExhausted_inten (p : Word) (s : State) : (writeExhausted p s).inten = s.inten := rfl
@[simp] theorem writeExhausted_seed (p : Word) (s : State) : (writeExhausted p s).seed = s.seed := rfl
@[simp] theorem writeExhausted_k (p : Word) (s : State) : (writeExhausted p s).k = s.k := rfl
@[simp] theorem writeExhausted_m (p : Word) (s : State) : (writeExhausted p s).m = s.m := rfl
@[simp] theorem writeExhausted_plim (p : Word) (s : State) : (writeExhausted p s).plim = s.plim := rfl
@[simp] theorem writeExhausted_keylen (p : Word) (s : State) : (writeExhausted p s).keylen = s.keylen := rfl
@[simp] theorem writeExhausted_keyval (p : Word) (s : State) : (writeExhausted p s).keyval = s.keyval := rfl
@[simp] theorem writeExhausted_h1 (p : Word) (s : State) : (writeExhausted p s).h1 = s.h1 := rfl
@[simp] theorem writeExhausted_h2 (p : Word) (s : State) : (writeExhausted p s).h2 = s.h2 := rfl
@[simp] theorem writeExhausted_result (p : Word) (s : State) : (writeExhausted p s).result = s.result := rfl
@[simp] theorem writeExhausted_probes (p : Word) (s : State) : (writeExhausted p s).probes = p := rfl
@[simp] theorem writeExhausted_idx (p : Word) (s : State) :
    (writeExhausted p s).idx = scrambleIndices s.idx s.draws s.k.toNat := rfl
@[simp] theorem writeExhausted_keybuf (p : Word) (s : State) : (writeExhausted p s).keybuf = s.keybuf := rfl
@[simp] theorem writeExhausted_bits (p : Word) (s : State) : (writeExhausted p s).bits = s.bits := rfl
@[simp] theorem writeExhausted_abortReq (p : Word) (s : State) : (writeExhausted p s).abortReq = s.abortReq := rfl
@[simp] theorem writeExhausted_rdata (p : Word) (s : State) : (writeExhausted p s).rdata = s.rdata := rfl
@[simp] theorem writeExhausted_draws (p : Word) (s : State) : (writeExhausted p s).draws = s.draws + 1 := rfl
@[simp] theorem writeExhausted_agenda (p : Word) (s : State) : (writeExhausted p s).agenda = s.agenda := rfl

/-! ### `insertIndices` (R236) -/

@[simp] theorem insertIndices_cfg (L : List Nat) (s : State) : (insertIndices L s).cfg = s.cfg := rfl
@[simp] theorem insertIndices_status (L : List Nat) (s : State) : (insertIndices L s).status = s.status := rfl
@[simp] theorem insertIndices_lastcmd (L : List Nat) (s : State) : (insertIndices L s).lastcmd = s.lastcmd := rfl
@[simp] theorem insertIndices_inten (L : List Nat) (s : State) : (insertIndices L s).inten = s.inten := rfl
@[simp] theorem insertIndices_seed (L : List Nat) (s : State) : (insertIndices L s).seed = s.seed := rfl
@[simp] theorem insertIndices_k (L : List Nat) (s : State) : (insertIndices L s).k = s.k := rfl
@[simp] theorem insertIndices_m (L : List Nat) (s : State) : (insertIndices L s).m = s.m := rfl
@[simp] theorem insertIndices_plim (L : List Nat) (s : State) : (insertIndices L s).plim = s.plim := rfl
@[simp] theorem insertIndices_keylen (L : List Nat) (s : State) : (insertIndices L s).keylen = s.keylen := rfl
@[simp] theorem insertIndices_keyval (L : List Nat) (s : State) : (insertIndices L s).keyval = s.keyval := rfl
@[simp] theorem insertIndices_h1 (L : List Nat) (s : State) : (insertIndices L s).h1 = s.h1 := rfl
@[simp] theorem insertIndices_h2 (L : List Nat) (s : State) : (insertIndices L s).h2 = s.h2 := rfl
@[simp] theorem insertIndices_result (L : List Nat) (s : State) : (insertIndices L s).result = s.result := rfl
@[simp] theorem insertIndices_probes (L : List Nat) (s : State) : (insertIndices L s).probes = s.probes := rfl
@[simp] theorem insertIndices_idx (L : List Nat) (s : State) : (insertIndices L s).idx = s.idx := rfl
@[simp] theorem insertIndices_keybuf (L : List Nat) (s : State) : (insertIndices L s).keybuf = s.keybuf := rfl
@[simp] theorem insertIndices_bits (L : List Nat) (s : State) : (insertIndices L s).bits = setBits s.bits L := rfl
@[simp] theorem insertIndices_abortReq (L : List Nat) (s : State) : (insertIndices L s).abortReq = s.abortReq := rfl
@[simp] theorem insertIndices_rdata (L : List Nat) (s : State) : (insertIndices L s).rdata = s.rdata := rfl
@[simp] theorem insertIndices_draws (L : List Nat) (s : State) : (insertIndices L s).draws = s.draws := rfl
@[simp] theorem insertIndices_agenda (L : List Nat) (s : State) : (insertIndices L s).agenda = s.agenda := rfl

/-! ### `testIndices` (R239) -/

@[simp] theorem testIndices_cfg (L : List Nat) (s : State) : (testIndices L s).cfg = s.cfg := rfl
@[simp] theorem testIndices_status (L : List Nat) (s : State) : (testIndices L s).status = s.status := rfl
@[simp] theorem testIndices_lastcmd (L : List Nat) (s : State) : (testIndices L s).lastcmd = s.lastcmd := rfl
@[simp] theorem testIndices_inten (L : List Nat) (s : State) : (testIndices L s).inten = s.inten := rfl
@[simp] theorem testIndices_seed (L : List Nat) (s : State) : (testIndices L s).seed = s.seed := rfl
@[simp] theorem testIndices_k (L : List Nat) (s : State) : (testIndices L s).k = s.k := rfl
@[simp] theorem testIndices_m (L : List Nat) (s : State) : (testIndices L s).m = s.m := rfl
@[simp] theorem testIndices_plim (L : List Nat) (s : State) : (testIndices L s).plim = s.plim := rfl
@[simp] theorem testIndices_keylen (L : List Nat) (s : State) : (testIndices L s).keylen = s.keylen := rfl
@[simp] theorem testIndices_keyval (L : List Nat) (s : State) : (testIndices L s).keyval = s.keyval := rfl
@[simp] theorem testIndices_h1 (L : List Nat) (s : State) : (testIndices L s).h1 = s.h1 := rfl
@[simp] theorem testIndices_h2 (L : List Nat) (s : State) : (testIndices L s).h2 = s.h2 := rfl
@[simp] theorem testIndices_result (L : List Nat) (s : State) :
    (testIndices L s).result = if L.all (fun i => s.bits.bit i) then 1#64 else 0#64 := rfl
@[simp] theorem testIndices_probes (L : List Nat) (s : State) : (testIndices L s).probes = s.probes := rfl
@[simp] theorem testIndices_idx (L : List Nat) (s : State) : (testIndices L s).idx = s.idx := rfl
@[simp] theorem testIndices_keybuf (L : List Nat) (s : State) : (testIndices L s).keybuf = s.keybuf := rfl
@[simp] theorem testIndices_bits (L : List Nat) (s : State) : (testIndices L s).bits = s.bits := rfl
@[simp] theorem testIndices_abortReq (L : List Nat) (s : State) : (testIndices L s).abortReq = s.abortReq := rfl
@[simp] theorem testIndices_rdata (L : List Nat) (s : State) : (testIndices L s).rdata = s.rdata := rfl
@[simp] theorem testIndices_draws (L : List Nat) (s : State) : (testIndices L s).draws = s.draws := rfl
@[simp] theorem testIndices_agenda (L : List Nat) (s : State) : (testIndices L s).agenda = s.agenda := rfl

/-! ### `writeAborted` (R266) -/

@[simp] theorem writeAborted_cfg (s : State) : (writeAborted s).cfg = s.cfg := rfl
@[simp] theorem writeAborted_status (s : State) : (writeAborted s).status = s.status := rfl
@[simp] theorem writeAborted_lastcmd (s : State) : (writeAborted s).lastcmd = s.lastcmd := rfl
@[simp] theorem writeAborted_inten (s : State) : (writeAborted s).inten = s.inten := rfl
@[simp] theorem writeAborted_seed (s : State) : (writeAborted s).seed = s.seed := rfl
@[simp] theorem writeAborted_k (s : State) : (writeAborted s).k = s.k := rfl
@[simp] theorem writeAborted_m (s : State) : (writeAborted s).m = s.m := rfl
@[simp] theorem writeAborted_plim (s : State) : (writeAborted s).plim = s.plim := rfl
@[simp] theorem writeAborted_keylen (s : State) : (writeAborted s).keylen = s.keylen := rfl
@[simp] theorem writeAborted_keyval (s : State) : (writeAborted s).keyval = s.keyval := rfl
@[simp] theorem writeAborted_h1 (s : State) : (writeAborted s).h1 = s.h1 := rfl
@[simp] theorem writeAborted_h2 (s : State) : (writeAborted s).h2 = s.h2 := rfl
@[simp] theorem writeAborted_result (s : State) : (writeAborted s).result = s.result := rfl
@[simp] theorem writeAborted_probes (s : State) : (writeAborted s).probes = Config.freeWord s.draws 0 := rfl
@[simp] theorem writeAborted_idx (s : State) :
    (writeAborted s).idx = scrambleIndices s.idx (s.draws + 1) s.k.toNat := rfl
@[simp] theorem writeAborted_keybuf (s : State) : (writeAborted s).keybuf = s.keybuf := rfl
@[simp] theorem writeAborted_bits (s : State) : (writeAborted s).bits = s.bits := rfl
@[simp] theorem writeAborted_abortReq (s : State) : (writeAborted s).abortReq = s.abortReq := rfl
@[simp] theorem writeAborted_rdata (s : State) : (writeAborted s).rdata = s.rdata := rfl
@[simp] theorem writeAborted_draws (s : State) : (writeAborted s).draws = s.draws + 2 := rfl
@[simp] theorem writeAborted_agenda (s : State) : (writeAborted s).agenda = s.agenda := rfl

/-! ### `storeIn` (R92): only the `IN` registers can change -/

@[simp] theorem storeIn_cfg (r : Reg) (v : Word) (s : State) : (storeIn r v s).cfg = s.cfg := by cases r <;> rfl
@[simp] theorem storeIn_status (r : Reg) (v : Word) (s : State) : (storeIn r v s).status = s.status := by cases r <;> rfl
@[simp] theorem storeIn_lastcmd (r : Reg) (v : Word) (s : State) : (storeIn r v s).lastcmd = s.lastcmd := by cases r <;> rfl
@[simp] theorem storeIn_inten (r : Reg) (v : Word) (s : State) : (storeIn r v s).inten = s.inten := by cases r <;> rfl
@[simp] theorem storeIn_h1 (r : Reg) (v : Word) (s : State) : (storeIn r v s).h1 = s.h1 := by cases r <;> rfl
@[simp] theorem storeIn_h2 (r : Reg) (v : Word) (s : State) : (storeIn r v s).h2 = s.h2 := by cases r <;> rfl
@[simp] theorem storeIn_result (r : Reg) (v : Word) (s : State) : (storeIn r v s).result = s.result := by cases r <;> rfl
@[simp] theorem storeIn_probes (r : Reg) (v : Word) (s : State) : (storeIn r v s).probes = s.probes := by cases r <;> rfl
@[simp] theorem storeIn_idx (r : Reg) (v : Word) (s : State) : (storeIn r v s).idx = s.idx := by cases r <;> rfl
@[simp] theorem storeIn_keybuf (r : Reg) (v : Word) (s : State) : (storeIn r v s).keybuf = s.keybuf := by cases r <;> rfl
@[simp] theorem storeIn_bits (r : Reg) (v : Word) (s : State) : (storeIn r v s).bits = s.bits := by cases r <;> rfl
@[simp] theorem storeIn_abortReq (r : Reg) (v : Word) (s : State) : (storeIn r v s).abortReq = s.abortReq := by cases r <;> rfl
@[simp] theorem storeIn_rdata (r : Reg) (v : Word) (s : State) : (storeIn r v s).rdata = s.rdata := by cases r <;> rfl
@[simp] theorem storeIn_draws (r : Reg) (v : Word) (s : State) : (storeIn r v s).draws = s.draws := by cases r <;> rfl
@[simp] theorem storeIn_agenda (r : Reg) (v : Word) (s : State) : (storeIn r v s).agenda = s.agenda := by cases r <;> rfl

end Sys2Proof.Machine
end

