-- ==== Sys2Proof/Laws/Command.lean ====
section
/-! SUPPORT. The laws of the commands: what each arm of `exec` answers, and once, everything a keyed command can do. -/

namespace Sys2Proof.Machine

/-! ### The arms of `exec` -/

@[simp] theorem exec_nop (s : State) : exec .nop s = .next (complete s) := rfl
@[simp] theorem exec_hashBytes (s : State) : exec .hashBytes s = .next (hashCommand .bytes s) := rfl
@[simp] theorem exec_hashU32 (s : State) : exec .hashU32 s = .next (hashCommand .u32 s) := rfl
@[simp] theorem exec_hashU64 (s : State) : exec .hashU64 s = .next (hashCommand .u64 s) := rfl
@[simp] theorem exec_indexBytes (s : State) : exec .indexBytes s = .next (filterCommand .bytes indexOnly s) := rfl
@[simp] theorem exec_indexU32 (s : State) : exec .indexU32 s = .next (filterCommand .u32 indexOnly s) := rfl
@[simp] theorem exec_indexU64 (s : State) : exec .indexU64 s = .next (filterCommand .u64 indexOnly s) := rfl
@[simp] theorem exec_addBytes (s : State) : exec .addBytes s = .next (filterCommand .bytes insertIndices s) := rfl
@[simp] theorem exec_addU32 (s : State) : exec .addU32 s = .next (filterCommand .u32 insertIndices s) := rfl
@[simp] theorem exec_addU64 (s : State) : exec .addU64 s = .next (filterCommand .u64 insertIndices s) := rfl
@[simp] theorem exec_testBytes (s : State) : exec .testBytes s = .next (filterCommand .bytes testIndices s) := rfl
@[simp] theorem exec_testU32 (s : State) : exec .testU32 s = .next (filterCommand .u32 testIndices s) := rfl
@[simp] theorem exec_testU64 (s : State) : exec .testU64 s = .next (filterCommand .u64 testIndices s) := rfl
@[simp] theorem exec_clear (s : State) : exec .clear s = .next (complete { s with bits := Memory.zeroed }) := rfl
@[simp] theorem exec_abort (s : State) :
    exec .abort s = .next (if s.status.busy then { s with abortReq := true } else s) := rfl

theorem exec_popcnt_ok (s : State) (h : mOK s = true) :
    exec .popcnt s = .next (complete { s with result := BitVec.ofNat 64 (countBits s.bits s.m.toNat) }) := by
  simp [exec, execPopcnt, h]

theorem exec_popcnt_bad (s : State) (h : mOK s = false) : exec .popcnt s = .next (raise .invalidParameter s) := by
  simp [exec, execPopcnt, h]

/-- Every command answers a next state. -/
theorem exec_answers (i : Instr) (s : State) : ∃ t, exec i s = .next t := by cases i <;> exact ⟨_, rfl⟩

/-! ### The checks of the operands -/

theorem keylenOK_iff (shape : Shape) (s : State) :
    keylenOK shape s = true ↔ (shape = .bytes → s.keylen.toNat ≤ s.cfg.keycap) := by
  cases shape <;> simp [keylenOK]

theorem kOK_iff (s : State) : kOK s = true ↔ 1 ≤ s.k.toNat ∧ s.k.toNat ≤ s.cfg.kmax := by simp [kOK]

theorem mOK_iff (s : State) : mOK s = true ↔ 8 ≤ s.m.toNat ∧ s.m.toNat ≤ s.cfg.bitcap := by simp [mOK]

theorem filterOK_iff (shape : Shape) (s : State) :
    filterOK shape s = true ↔
      (1 ≤ s.k.toNat ∧ s.k.toNat ≤ s.cfg.kmax) ∧ (8 ≤ s.m.toNat ∧ s.m.toNat ≤ s.cfg.bitcap) ∧
        (shape = .bytes → s.keylen.toNat ≤ s.cfg.keycap) := by
  simp only [filterOK, Bool.and_eq_true, kOK_iff, mOK_iff, keylenOK_iff, and_assoc]

/-! ### `HASH` -/

theorem hashCommand_ok {shape : Shape} {s : State} {d : Word × Word} (h : keylenOK shape s = true)
    (hd : digest shape s = d) : hashCommand shape s = complete (writeDigest d s) := by simp [hashCommand, h, hd]

theorem hashCommand_bad {shape : Shape} {s : State} (h : keylenOK shape s = false) :
    hashCommand shape s = raise .invalidParameter s := by simp [hashCommand, h]

/-- Everything a `HASH` can do. The digest is a variable, so that no later proof unfolds it. -/
theorem hashCommand_cases (shape : Shape) (s : State) :
    (keylenOK shape s = false ∧ hashCommand shape s = raise .invalidParameter s) ∨
      (keylenOK shape s = true ∧ ∃ d, digest shape s = d ∧ hashCommand shape s = complete (writeDigest d s)) := by
  cases h : keylenOK shape s with
  | false => exact .inl ⟨rfl, hashCommand_bad h⟩
  | true => exact .inr ⟨rfl, _, rfl, hashCommand_ok h rfl⟩

/-! ### `INDEX`, `ADD`, `TEST` -/

theorem filterCommand_bad {shape : Shape} {f : List Nat → State → State} {s : State} (h : filterOK shape s = false) :
    filterCommand shape f s = raise .invalidParameter s := by simp [filterCommand, h]

theorem filterCommand_ok {shape : Shape} {f : List Nat → State → State} {s : State} {d : Word × Word} {L : List Nat}
    {p : Word} (h : filterOK shape s = true) (hd : digest shape s = d) (hg : generation shape s = .ok L p) :
    filterCommand shape f s = complete (f L (writeIndices L p (writeDigest d s))) := by
  simp [filterCommand, h, hg, hd]

theorem filterCommand_exhausted {shape : Shape} {f : List Nat → State → State} {s : State} {d : Word × Word} {p : Word}
    (h : filterOK shape s = true) (hd : digest shape s = d) (hg : generation shape s = .exhausted p) :
    filterCommand shape f s = raise .hashExhausted (writeExhausted p (writeDigest d s)) := by
  simp [filterCommand, h, hg, hd]

theorem filterCommand_never {shape : Shape} {f : List Nat → State → State} {s : State}
    (h : filterOK shape s = true) (hg : generation shape s = .never) : filterCommand shape f s = s := by
  simp [filterCommand, h, hg]

/-- Everything a command that generates indices can do. The digest is a variable, so that no later proof unfolds it. -/
theorem filterCommand_cases (shape : Shape) (f : List Nat → State → State) (s : State) :
    (filterOK shape s = false ∧ filterCommand shape f s = raise .invalidParameter s) ∨
      (filterOK shape s = true ∧ ∃ d, digest shape s = d ∧
        ((∃ L p, generation shape s = .ok L p ∧
            filterCommand shape f s = complete (f L (writeIndices L p (writeDigest d s)))) ∨
          (∃ p, generation shape s = .exhausted p ∧
            filterCommand shape f s = raise .hashExhausted (writeExhausted p (writeDigest d s))) ∨
          (generation shape s = .never ∧ filterCommand shape f s = s))) := by
  cases h : filterOK shape s with
  | false => exact .inl ⟨rfl, filterCommand_bad h⟩
  | true =>
    refine .inr ⟨rfl, _, rfl, ?_⟩
    cases hg : generation shape s with
    | ok L p => exact .inl ⟨L, p, rfl, filterCommand_ok h rfl hg⟩
    | exhausted p => exact .inr (.inl ⟨p, rfl, filterCommand_exhausted h rfl hg⟩)
    | never => exact .inr (.inr ⟨rfl, filterCommand_never h hg⟩)

/-- With legal operands an `OK` generation has `K` indices, each below `M`. -/
theorem generation_ok_bounds {shape : Shape} {s : State} {L : List Nat} {p : Word} (h : filterOK shape s = true)
    (hg : generation shape s = .ok L p) : L.length = s.k.toNat ∧ ∀ c ∈ L, c < s.m.toNat := by
  have hm : 0 < s.m.toNat := by have := ((filterOK_iff shape s).1 h).2.1.1; omega
  exact ⟨hashes_ok_length hm hg, hashes_ok_lt hm hg⟩

end Sys2Proof.Machine
end

