-- ==== Sys2Proof/Laws/Keys.lean ====
section
/-! SUPPORT. From the words of the statements to the machine's: the key, the checks, and the command behind a name.

A digest must stay a variable in a proof, or Lean and its kernel evaluate it. Take `obtain ⟨d, hd⟩ : ∃ d, digest shape s = d :=
⟨_, rfl⟩` and rewrite with `hd`; `generalize` puts the digest back into the proof term. -/

namespace Sys2Proof.Claims

open Sys2Proof.Machine

/-- The bytes of an integer key, as quotients of its number (R174, R175). -/
theorem keyIs_keyBytes (shape : Shape) (s : State) : KeyIs shape s (keyBytes shape s) := by
  cases shape with
  | bytes =>
    simp only [KeyIs, keyBytes, keybufBytes, List.length_map, List.length_range, true_and]
    intro j hj
    simp [hj]
  | u32 =>
    refine ⟨by simp only [keyBytes, u32Bytes]; cases s.cfg.int32Order <;> rfl, fun j hj => ?_⟩
    simp only [keyBytes, u32Bytes]
    cases s.cfg.int32Order <;> interval_cases j <;> simp [BitVec.extractLsb'_toNat, Nat.shiftRight_eq_div_pow] <;> omega
  | u64 =>
    refine ⟨by simp only [keyBytes, u64Bytes]; cases s.cfg.int64Order <;> rfl, fun j hj => ?_⟩
    simp only [keyBytes, u64Bytes, byteOf]
    cases s.cfg.int64Order <;> interval_cases j <;> simp [BitVec.extractLsb'_toNat, Nat.shiftRight_eq_div_pow]

/-- Two lists of one length with the same bytes as numbers are one list. -/
theorem bytes_eq_of_toNat {n : Nat} {A B : List Byte} {f : Nat → Nat} (ha : A.length = n) (hb : B.length = n)
    (hA : ∀ j, j < n → (A[j]?.map BitVec.toNat) = some (f j)) (hB : ∀ j, j < n → (B[j]?.map BitVec.toNat) = some (f j)) :
    A = B := by
  refine List.ext_getElem? fun j => ?_
  by_cases hj : j < n
  · exact Option.map_injective (fun x y => BitVec.eq_of_toNat_eq) ((hA j hj).trans (hB j hj).symm)
  · rw [List.getElem?_eq_none (by omega), List.getElem?_eq_none (by omega)]

/-- `KeyIs` names one list: the bytes the machine hashes. -/
theorem keyIs_iff (shape : Shape) (s : State) (B : List Byte) : KeyIs shape s B ↔ B = keyBytes shape s := by
  have k := keyIs_keyBytes shape s
  refine ⟨fun h => ?_, fun h => h ▸ k⟩
  cases shape with
  | bytes =>
    refine List.ext_getElem? fun j => ?_
    by_cases hj : j < s.keylen.toNat
    · rw [h.2 j hj, k.2 j hj]
    · rw [List.getElem?_eq_none (by rw [h.1]; omega), List.getElem?_eq_none (by rw [k.1]; omega)]
  | u32 => exact bytes_eq_of_toNat h.1 k.1 h.2 k.2
  | u64 => exact bytes_eq_of_toNat h.1 k.1 h.2 k.2

/-- Two running commands that hash the same key under the same seed have the same digest. -/
theorem SameKey.digest_eq {shape shape' : Shape} {s u : State} (h : SameKey shape s shape' u) :
    digest shape s = digest shape' u := by
  obtain ⟨hs, hc, B, h1, h2⟩ := h
  rw [keyIs_iff] at h1 h2
  rw [digest, digest, hs, hc, ← h1, ← h2]

/-- The digest of the key a statement names. -/
theorem digest_of_key {shape : Shape} {s : State} {B : List Byte} (h : KeyIs shape s B) :
    digest shape s = establish s.cfg.tailSignExtend B s.seed := by
  rw [(keyIs_iff _ _ _).1 h, digest]

/-- The generation on the key a statement names. -/
theorem generation_of_key {shape : Shape} {s : State} {B : List Byte} (h : KeyIs shape s B) :
    generation shape s =
      hashes (establish s.cfg.tailSignExtend B s.seed).1 (establish s.cfg.tailSignExtend B s.seed).2 s.k.toNat s.m.toNat
        s.plim := by
  rw [generation, digest_of_key h]

theorem paramsOK_iff (shape : Shape) (s : State) : ParamsOK shape s ↔ filterOK shape s = true := by
  rw [filterOK_iff]
  rfl

/-- What a generating command does with its indices. -/
def onOkOf : Instr → List Nat → State → State
  | .addBytes | .addU32 | .addU64 => insertIndices
  | .testBytes | .testU32 | .testU64 => testIndices
  | .nop | .hashBytes | .hashU32 | .hashU64 | .indexBytes | .indexU32 | .indexU64 | .clear | .popcnt | .abort => indexOnly

/-- The commands that generate indices, as the engine finds their shape (R266). -/
theorem mem_filterCommands {i : Instr} {shape : Shape} : (i, shape) ∈ filterCommands ↔ generatingShape i = some shape := by
  cases i <;> cases shape <;> decide

theorem exec_of_mem_hashCommands {i : Instr} {shape : Shape} (h : (i, shape) ∈ hashCommands) (s : State) :
    exec i s = .next (hashCommand shape s) := by
  have e : ∀ p ∈ hashCommands, exec p.1 s = .next (hashCommand p.2 s) := by simp [hashCommands]
  exact e _ h

theorem exec_of_mem_filterCommands {i : Instr} {shape : Shape} (h : (i, shape) ∈ filterCommands) (s : State) :
    exec i s = .next (filterCommand shape (onOkOf i) s) := by
  rw [mem_filterCommands] at h
  cases i <;> cases h <;> rfl

theorem onOkOf_status (i : Instr) (L : List Nat) (s : State) : (onOkOf i L s).status = s.status := by cases i <;> rfl

theorem onOkOf_outputs (i : Instr) (L : List Nat) (s : State) :
    (onOkOf i L s).h1 = s.h1 ∧ (onOkOf i L s).h2 = s.h2 ∧ (onOkOf i L s).probes = s.probes ∧ (onOkOf i L s).idx = s.idx := by
  cases i <;> exact ⟨rfl, rfl, rfl, rfl⟩

/-- A running `INDEX`, `ADD` or `TEST` that ends without error ends through a successful generation. -/
theorem filterCommand_endedOK {shape : Shape} {i : Instr} {s : State} (hs : s.Running)
    (h : (filterCommand shape (onOkOf i) s).EndedOK) :
    filterOK shape s = true ∧ ∃ d L p, digest shape s = d ∧ generation shape s = .ok L p ∧
      filterCommand shape (onOkOf i) s = complete (onOkOf i L (writeIndices L p (writeDigest d s))) := by
  rcases filterCommand_cases shape (onOkOf i) s with ⟨_, e⟩ | ⟨ho, d, hd, ⟨L, p, hg, e⟩ | ⟨p, hg, e⟩ | ⟨hg, e⟩⟩
  · have := h.noErr
    rw [e] at this
    cases this
  · exact ⟨ho, d, L, p, hd, hg, e⟩
  · have := h.noErr
    rw [e] at this
    cases this
  · have := h.idle
    rw [e, hs.busy] at this
    cases this

end Sys2Proof.Claims
end

