-- ==== Sys2Proof/Laws/Memory.lean ====
section
/-! SUPPORT. The laws of the storage arrays: read after write, what a write leaves alone, and that every operation keeps the
canonical form `Memory.wf`. -/

namespace Sys2Proof.Machine

/-! ### Cells -/

theorem lookupCell_insertCell (a b : _) (a' : Nat) (l : List Host.Cell) :
    lookupCell a' (insertCell a b l) = if a = a' then some b else lookupCell a' l := by
  induction l with
  | nil => simp [insertCell, lookupCell]
  | cons c r ih =>
    unfold insertCell
    split
    · simp [lookupCell]
    · split
      · next _ h => subst h; by_cases h' : c.1 = a' <;> simp [lookupCell, h']
      · next _ h =>
        by_cases h' : c.1 = a'
        · have : a ≠ a' := fun e => h (e.trans h'.symm)
          simp [lookupCell, h', this]
        · simp [lookupCell, h', ih]

theorem lookupCell_eraseCell (a a' : Nat) (l : List Host.Cell) :
    lookupCell a' (eraseCell a l) = if a = a' then none else lookupCell a' l := by
  induction l with
  | nil => simp [eraseCell, lookupCell]
  | cons c r ih =>
    unfold eraseCell
    split
    · next h => rw [ih]; by_cases h' : a = a' <;> simp [lookupCell, h, h']
    · next h =>
      by_cases h' : c.1 = a'
      · have : a ≠ a' := fun e => h (h'.trans e.symm)
        simp [lookupCell, h', this]
      · simp [lookupCell, h', ih]

/-! ### Bytes -/

/-- Reading a byte after writing one: the written byte, or the old one elsewhere. -/
theorem Memory.byte_setByte (m : Memory) (a a' : Nat) (b : Byte) :
    (m.setByte a b).byte a' = if a = a' then b else m.byte a' := by
  rcases m with ⟨f, l⟩
  cases f with
  | free d => by_cases h : a = a' <;> simp [setByte, byte, lookupCell_insertCell, h]
  | zero =>
    by_cases hb : b = 0#8 <;> by_cases h : a = a' <;>
      simp [setByte, byte, lookupCell_insertCell, lookupCell_eraseCell, hb, h, Fill.byte]

@[simp] theorem Memory.byte_setByte_same (m : Memory) (a : Nat) (b : Byte) : (m.setByte a b).byte a = b := by
  simp [byte_setByte]

theorem Memory.byte_setByte_other (m : Memory) {a a' : Nat} (b : Byte) (h : a ≠ a') :
    (m.setByte a b).byte a' = m.byte a' := by
  simp [byte_setByte, h]

@[simp] theorem Memory.setByte_fill (m : Memory) (a : Nat) (b : Byte) : (m.setByte a b).fill = m.fill := by
  rcases m with ⟨f, l⟩
  cases f <;> rfl

@[simp] theorem Memory.zeroed_byte (a : Nat) : Memory.zeroed.byte a = 0#8 := rfl

/-! ### Words -/

/-- A byte after a word write: the word's byte inside the word, the old byte elsewhere. -/
theorem Memory.byte_setWord (m : Memory) (w : Nat) (v : Word) (a : Nat) :
    (m.setWord w v).byte a = if a / 8 = w then byteOf v (a % 8) else m.byte a := by
  have hr : List.range 8 = [0, 1, 2, 3, 4, 5, 6, 7] := by decide
  simp only [setWord, hr, List.foldl_cons, List.foldl_nil, byte_setByte]
  by_cases h : a / 8 = w
  · have ha : a = 8 * w + a % 8 := by omega
    have hlt : a % 8 < 8 := Nat.mod_lt _ (by omega)
    generalize a % 8 = k at *
    subst ha
    rcases (by omega : k = 0 ∨ k = 1 ∨ k = 2 ∨ k = 3 ∨ k = 4 ∨ k = 5 ∨ k = 6 ∨ k = 7) with
      rfl | rfl | rfl | rfl | rfl | rfl | rfl | rfl <;> simp [h]
  · rw [if_neg h]
    repeat' rw [if_neg (by omega)]

/-- Bit `i` of a word of an array is the array's bit `64w + i`. -/
theorem Memory.getLsbD_word (m : Memory) (w i : Nat) (hi : i < 64) :
    (m.word w).getLsbD i = (m.byte (8 * w + i / 8)).getLsbD (i % 8) := by
  have hk : i = 8 * (i / 8) + i % 8 := by omega
  have hlt : i % 8 < 8 := Nat.mod_lt _ (by omega)
  have hd : i / 8 < 8 := by omega
  generalize i / 8 = q at *
  generalize i % 8 = r at *
  subst hk
  simp only [word, BitVec.getLsbD_append]
  rcases (by omega : q = 0 ∨ q = 1 ∨ q = 2 ∨ q = 3 ∨ q = 4 ∨ q = 5 ∨ q = 6 ∨ q = 7) with
    rfl | rfl | rfl | rfl | rfl | rfl | rfl | rfl
  all_goals
    repeat' first
      | rw [if_pos (by omega)]
      | rw [if_neg (by omega)]
    congr 1; omega

/-- Bit `i` of word `w` is bit `64w + i` of the array (R80, R230). -/
theorem Memory.getLsbD_word_eq_bit (m : Memory) (w i : Nat) (hi : i < 64) :
    (m.word w).getLsbD i = m.bit (64 * w + i) := by
  rw [getLsbD_word m w i hi, bit, show (64 * w + i) / 8 = 8 * w + i / 8 by omega,
    show (64 * w + i) % 8 = i % 8 by omega]

theorem getLsbD_byteOf (v : Word) (b i : Nat) (hi : i < 8) : (byteOf v b).getLsbD i = v.getLsbD (8 * b + i) := by
  simp [byteOf, hi]

/-- A word after a word write. -/
theorem Memory.word_setWord (m : Memory) (w w' : Nat) (v : Word) :
    (m.setWord w v).word w' = if w = w' then v else m.word w' := by
  apply BitVec.eq_of_getLsbD_eq
  intro i hi
  rw [getLsbD_word _ _ _ hi, byte_setWord, show (8 * w' + i / 8) / 8 = w' by omega,
    show (8 * w' + i / 8) % 8 = i / 8 by omega]
  by_cases h : w = w'
  · rw [if_pos h.symm, if_pos h, getLsbD_byteOf _ _ _ (by omega)]
    congr 1; omega
  · rw [if_neg (Ne.symm h), if_neg h, getLsbD_word _ _ _ hi]

@[simp] theorem Memory.word_setWord_same (m : Memory) (w : Nat) (v : Word) : (m.setWord w v).word w = v := by
  simp [word_setWord]

theorem Memory.word_setWord_other (m : Memory) {w w' : Nat} (v : Word) (h : w ≠ w') :
    (m.setWord w v).word w' = m.word w' := by
  simp [word_setWord, h]

/-- A bit after a word write: the word's bit inside the word, the old bit elsewhere. -/
theorem Memory.bit_setWord (m : Memory) (w : Nat) (v : Word) (j : Nat) :
    (m.setWord w v).bit j = if j / 64 = w then v.getLsbD (j % 64) else m.bit j := by
  have e : j = 64 * (j / 64) + j % 64 := by omega
  rw [e, ← getLsbD_word_eq_bit _ _ _ (by omega), ← getLsbD_word_eq_bit _ _ _ (by omega), word_setWord,
    show (64 * (j / 64) + j % 64) / 64 = j / 64 by omega, show (64 * (j / 64) + j % 64) % 64 = j % 64 by omega]
  by_cases h : w = j / 64
  · rw [if_pos h, if_pos h.symm]
  · rw [if_neg h, if_neg (Ne.symm h)]

@[simp] theorem Memory.setWord_fill (m : Memory) (w : Nat) (v : Word) : (m.setWord w v).fill = m.fill := by
  simp [setWord, List.range_succ]

/-! ### Bits -/

/-- A bit after setting one: set, or the old bit elsewhere. -/
theorem Memory.bit_setBit (m : Memory) (i j : Nat) : (m.setBit i).bit j = (decide (i = j) || m.bit j) := by
  have hm : i % 8 < 8 := Nat.mod_lt _ (by omega)
  have hm' : j % 8 < 8 := Nat.mod_lt _ (by omega)
  rw [bit, setBit, byte_setByte]
  by_cases h : i / 8 = j / 8
  · rw [if_pos h, BitVec.getLsbD_or, h, bit]
    have hs : (1#8 <<< (i % 8)).getLsbD (j % 8) = decide (i = j) := by
      rw [BitVec.getLsbD_shiftLeft, BitVec.getLsbD_one]
      by_cases e : i = j
      · subst e; simp [hm]
      · have : i % 8 ≠ j % 8 := by omega
        by_cases hlt : j % 8 < i % 8
        · simp [hlt, e]
        · simp [hlt, e]; intro; omega
    rw [hs, Bool.or_comm]
  · have : i ≠ j := fun e => h (by rw [e])
    rw [if_neg h, bit]; simp [this]

@[simp] theorem Memory.setBit_fill (m : Memory) (i : Nat) : (m.setBit i).fill = m.fill := by simp [setBit]

/-- A bit after setting a list of bits. -/
theorem bit_setBits (m : Memory) (L : List Nat) (j : Nat) : (setBits m L).bit j = (decide (j ∈ L) || m.bit j) := by
  induction L generalizing m with
  | nil => simp [setBits]
  | cons i r ih =>
    have : setBits m (i :: r) = setBits (m.setBit i) r := rfl
    rw [this, ih, Memory.bit_setBit]
    by_cases h : i = j
    · subst h; simp
    · have h' : ¬ j = i := fun e => h e.symm
      simp [h, h']

@[simp] theorem Memory.zeroed_bit (j : Nat) : Memory.zeroed.bit j = false := by simp [bit]

/-! ### The index buffer -/

/-- An index buffer entry after storing a list from entry `i` on. -/
theorem word_storeIndices (m : Memory) (i : Nat) (L : List Nat) (j : Nat) :
    (storeIndices m i L).word j =
      if i ≤ j ∧ j < i + L.length then BitVec.ofNat 64 (L.getD (j - i) 0) else m.word j := by
  induction L generalizing m i with
  | nil => simp [storeIndices]
  | cons c r ih =>
    rw [storeIndices, ih, Memory.word_setWord]
    by_cases h : j = i
    · subst h; simp
    · have h' : ¬ i = j := fun e => h e.symm
      by_cases hr : i + 1 ≤ j ∧ j < i + 1 + r.length
      · rw [if_pos hr, if_pos (by simp; omega), show j - i = (j - (i + 1)) + 1 by omega]; simp
      · rw [if_neg hr, if_neg h', if_neg (by simp; omega)]

/-- An index buffer entry after the first `n` become unspecified. -/
theorem word_scrambleIndices (m : Memory) (d n j : Nat) :
    (scrambleIndices m d n).word j = if j < n then Config.freeWord d j else m.word j := by
  induction n with
  | zero => simp [scrambleIndices]
  | succ n ih =>
    rw [scrambleIndices, Memory.word_setWord, ih]
    by_cases h : n = j
    · subst h; simp
    · rw [if_neg h]
      by_cases hj : j < n
      · rw [if_pos hj, if_pos (by omega)]
      · rw [if_neg hj, if_neg (by omega)]

/-! ### The window's mask -/

/-- `valid(w)` has bit `b` exactly when `64w + b < L` (R80). -/
theorem getLsbD_validMask (L w b : Nat) (hb : b < 64) : (validMask L w).getLsbD b = decide (64 * w + b < L) := by
  rw [validMask, BitVec.getLsbD_ofNat, Nat.testBit_two_pow_sub_one]
  simp only [hb, decide_true, Bool.true_and, decide_eq_decide]
  omega

/-! ### The canonical form -/

theorem cellsRise_mono {lo lo' : Nat} (h : lo' ≤ lo) {l : List Host.Cell} (hl : cellsRise lo l = true) :
    cellsRise lo' l = true := by
  cases l with
  | nil => rfl
  | cons c r =>
    simp only [cellsRise, Bool.and_eq_true, decide_eq_true_eq] at hl ⊢
    exact ⟨by omega, hl.2⟩

theorem cellsRise_insertCell {lo a : Nat} (b : Byte) {l : List Host.Cell} (ha : lo ≤ a) (hl : cellsRise lo l = true) :
    cellsRise lo (insertCell a b l) = true := by
  induction l generalizing lo with
  | nil => simp [insertCell, cellsRise, ha]
  | cons c r ih =>
    simp only [cellsRise, Bool.and_eq_true, decide_eq_true_eq] at hl
    unfold insertCell
    split
    · simp [cellsRise, ha, hl.2]; omega
    · split
      · next _ h => subst h; simp [cellsRise, hl.1, hl.2]
      · simp [cellsRise, hl.1, ih (by omega : c.1 + 1 ≤ a) hl.2]

theorem cellsRise_eraseCell {lo : Nat} (a : Nat) {l : List Host.Cell} (hl : cellsRise lo l = true) :
    cellsRise lo (eraseCell a l) = true := by
  induction l generalizing lo with
  | nil => rfl
  | cons c r ih =>
    simp only [cellsRise, Bool.and_eq_true, decide_eq_true_eq] at hl
    unfold eraseCell
    split
    · exact ih (cellsRise_mono (by omega) hl.2)
    · simp [cellsRise, hl.1, ih hl.2]

theorem cellsBelow_insertCell {size a : Nat} (b : Byte) {l : List Host.Cell} (ha : a < size)
    (hl : cellsBelow size l = true) : cellsBelow size (insertCell a b l) = true := by
  induction l with
  | nil => simp [insertCell, cellsBelow, ha]
  | cons c r ih =>
    simp only [cellsBelow, Bool.and_eq_true, decide_eq_true_eq] at hl
    unfold insertCell
    split
    · simp [cellsBelow, ha, hl]
    · split
      · simp [cellsBelow, ha, hl.2]
      · simp [cellsBelow, hl.1, ih hl.2]

theorem cellsBelow_eraseCell {size : Nat} (a : Nat) {l : List Host.Cell} (hl : cellsBelow size l = true) :
    cellsBelow size (eraseCell a l) = true := by
  induction l with
  | nil => rfl
  | cons c r ih =>
    simp only [cellsBelow, Bool.and_eq_true, decide_eq_true_eq] at hl
    unfold eraseCell
    split
    · exact ih hl.2
    · simp [cellsBelow, hl.1, ih hl.2]

theorem cellsNonzero_insertCell {a : Nat} {b : Byte} {l : List Host.Cell} (hb : b ≠ 0#8)
    (hl : cellsNonzero l = true) : cellsNonzero (insertCell a b l) = true := by
  induction l with
  | nil => simp [insertCell, cellsNonzero, hb]
  | cons c r ih =>
    simp only [cellsNonzero, Bool.and_eq_true, bne_iff_ne] at hl
    unfold insertCell
    split
    · simp [cellsNonzero, hb, hl]
    · split
      · simp [cellsNonzero, hb, hl.2]
      · simp [cellsNonzero, hl.1, ih hl.2]

theorem cellsNonzero_eraseCell (a : Nat) {l : List Host.Cell} (hl : cellsNonzero l = true) :
    cellsNonzero (eraseCell a l) = true := by
  induction l with
  | nil => rfl
  | cons c r ih =>
    simp only [cellsNonzero, Bool.and_eq_true, bne_iff_ne] at hl
    unfold eraseCell
    split
    · exact ih hl.2
    · simp [cellsNonzero, hl.1, ih hl.2]

/-- A byte write inside the array keeps the canonical form. -/
theorem Memory.wf_setByte {size : Nat} {m : Memory} {a : Nat} (b : Byte) (ha : a < size) (h : m.wf size = true) :
    (m.setByte a b).wf size = true := by
  rcases m with ⟨f, l⟩
  cases f with
  | free d =>
    simp only [wf, Bool.and_eq_true] at h
    simp [wf, setByte, cellsRise_insertCell b (Nat.zero_le a) h.1.1, cellsBelow_insertCell b ha h.1.2]
  | zero =>
    simp only [wf, Bool.and_eq_true] at h
    by_cases hb : b = 0#8
    · simp [wf, setByte, hb, cellsRise_eraseCell a h.1.1, cellsBelow_eraseCell a h.1.2, cellsNonzero_eraseCell a h.2]
    · simp [wf, setByte, hb, cellsRise_insertCell b (Nat.zero_le a) h.1.1, cellsBelow_insertCell b ha h.1.2,
        cellsNonzero_insertCell hb h.2]

/-- A word write inside the array keeps the canonical form. -/
theorem Memory.wf_setWord {size : Nat} {m : Memory} {w : Nat} (v : Word) (hw : 8 * w + 8 ≤ size) (h : m.wf size = true) :
    (m.setWord w v).wf size = true := by
  have key : ∀ (bs : List Nat), (∀ b ∈ bs, b < 8) → ∀ n : Memory, n.wf size = true →
      (bs.foldl (fun n b => n.setByte (8 * w + b) (byteOf v b)) n).wf size = true := by
    intro bs
    induction bs with
    | nil => intro _ n hn; exact hn
    | cons b r ih =>
      intro hb n hn
      have h8 := hb b (by simp)
      exact ih (fun b' hb' => hb b' (by simp [hb'])) _ (wf_setByte _ (by omega) hn)
  exact key _ (fun b hb => by simpa using hb) m h

/-- Setting a bit inside the array keeps the canonical form. -/
theorem Memory.wf_setBit {size : Nat} {m : Memory} {i : Nat} (hi : i / 8 < size) (h : m.wf size = true) :
    (m.setBit i).wf size = true :=
  wf_setByte _ hi h

theorem wf_setBits {size : Nat} {m : Memory} {L : List Nat} (hL : ∀ i ∈ L, i / 8 < size) (h : m.wf size = true) :
    (setBits m L).wf size = true := by
  induction L generalizing m with
  | nil => exact h
  | cons i r ih =>
    exact ih (fun j hj => hL j (by simp [hj])) (Memory.wf_setBit (hL i (by simp)) h)

theorem wf_storeIndices {size : Nat} {m : Memory} {i : Nat} {L : List Nat} (hL : 8 * (i + L.length) ≤ size)
    (h : m.wf size = true) : (storeIndices m i L).wf size = true := by
  induction L generalizing m i with
  | nil => exact h
  | cons c r ih =>
    simp only [List.length_cons] at hL
    exact ih (by omega) (Memory.wf_setWord _ (by omega) h)

theorem wf_scrambleIndices {size : Nat} {m : Memory} (d : Nat) {n : Nat} (hn : 8 * n ≤ size) (h : m.wf size = true) :
    (scrambleIndices m d n).wf size = true := by
  induction n with
  | zero => exact h
  | succ n ih => exact Memory.wf_setWord _ (by omega) (ih (by omega))

theorem Memory.wf_empty (size : Nat) (f : Fill) : ({ fill := f, cells := [] } : Memory).wf size = true := by
  cases f <;> rfl

theorem Memory.wf_zeroed (size : Nat) : Memory.zeroed.wf size = true := wf_empty size .zero

/-! ### The fill -/

@[simp] theorem setBits_fill (m : Memory) (L : List Nat) : (setBits m L).fill = m.fill := by
  induction L generalizing m with
  | nil => rfl
  | cons i r ih => exact (ih (m.setBit i)).trans (by simp)

@[simp] theorem storeIndices_fill (m : Memory) (i : Nat) (L : List Nat) : (storeIndices m i L).fill = m.fill := by
  induction L generalizing m i with
  | nil => rfl
  | cons c r ih => exact (ih _ _).trans (by simp)

@[simp] theorem scrambleIndices_fill (m : Memory) (d n : Nat) : (scrambleIndices m d n).fill = m.fill := by
  induction n with
  | zero => rfl
  | succ n ih => exact (Memory.setWord_fill _ _ _).trans ih

/-- Whether the fill was drawn before a draw depends on the fill alone, and later draws keep it. -/
theorem Memory.drawnBefore_of_fill {m n : Memory} {d e : Nat} (hf : n.fill = m.fill) (hde : d ≤ e)
    (h : m.drawnBefore d = true) : n.drawnBefore e = true := by
  unfold drawnBefore at h ⊢
  rw [hf]
  cases hm : m.fill with
  | zero => rfl
  | free k => rw [hm] at h; simp only [decide_eq_true_eq] at h ⊢; omega

end Sys2Proof.Machine
end

