-- ==== Sys2Proof/Laws/PerInstr.lean ====
section
/-! SUPPORT. A family stated per command: its word as syntax (30_encoding.md R100 to R105, R109). -/

namespace Sys2Proof.Laws.Encoding

/-- The command is well formed; its word is one the decoder gives back, with every reserved bit 0 (R103, R104). -/
def Statement (i : Instr) : Prop :=
  i.wellFormed = true ∧ rsvField (encode i) = 0#54 ∧ decode (encode i) = .ok i

theorem nop : Statement .nop := ⟨rfl, by decide, by decide⟩
theorem hashBytes : Statement .hashBytes := ⟨rfl, by decide, by decide⟩
theorem hashU32 : Statement .hashU32 := ⟨rfl, by decide, by decide⟩
theorem hashU64 : Statement .hashU64 := ⟨rfl, by decide, by decide⟩
theorem indexBytes : Statement .indexBytes := ⟨rfl, by decide, by decide⟩
theorem indexU32 : Statement .indexU32 := ⟨rfl, by decide, by decide⟩
theorem indexU64 : Statement .indexU64 := ⟨rfl, by decide, by decide⟩
theorem addBytes : Statement .addBytes := ⟨rfl, by decide, by decide⟩
theorem addU32 : Statement .addU32 := ⟨rfl, by decide, by decide⟩
theorem addU64 : Statement .addU64 := ⟨rfl, by decide, by decide⟩
theorem testBytes : Statement .testBytes := ⟨rfl, by decide, by decide⟩
theorem testU32 : Statement .testU32 := ⟨rfl, by decide, by decide⟩
theorem testU64 : Statement .testU64 := ⟨rfl, by decide, by decide⟩
theorem clear : Statement .clear := ⟨rfl, by decide, by decide⟩
theorem popcnt : Statement .popcnt := ⟨rfl, by decide, by decide⟩
theorem abort : Statement .abort := ⟨rfl, by decide, by decide⟩

end Sys2Proof.Laws.Encoding
end

