-- ==== Sys2Proof/Laws/Step.lean ====
section
/-! SUPPORT. The laws of the agents' moves: where an offset falls, what each move answers, and once, everything the engine's
move can do. -/

namespace Sys2Proof.Machine

/-! ### The next move -/

theorem step_nil {s : State} (h : s.agenda = []) : step s = runAlone s := by simp [step, h]

theorem step_cons {s : State} {t : Turn} {rest : List Turn} (h : s.agenda = t :: rest) :
    step s = takeTurn t { s with agenda := rest } := by simp [step, h]

@[simp] theorem takeTurn_read (addr : Addr) (s : State) : takeTurn (.read addr) s = .next (memRead addr s) := rfl
@[simp] theorem takeTurn_write (addr : Addr) (v : Word) (s : State) :
    takeTurn (.write addr v) s = memWrite addr v s := rfl
@[simp] theorem takeTurn_wait (s : State) : takeTurn .wait s = .next (pollStatus s) := rfl
@[simp] theorem takeTurn_engine (b : Bool) (s : State) : takeTurn (.engine b) s = engineStep b s := rfl
@[simp] theorem takeTurn_reset (s : State) : takeTurn .reset s = .next (resetStep s) := rfl

/-! ### The engine between polls and alone -/

theorem pollStatus_idle {s : State} (h : s.status.busy = false) :
    pollStatus s = { s with rdata := s.status.toWord } := by simp [pollStatus, h]

theorem pollStatus_busy {s : State} (h : s.status.busy = true) :
    pollStatus s =
      { s with
        rdata := s.status.toWord, agenda := .engine (Config.freePick s.draws) :: .wait :: s.agenda
        draws := s.draws + 1 } := by simp [pollStatus, h]

theorem runAlone_idle {s : State} (h : s.status.busy = false) : runAlone s = .next s := by simp [runAlone, h]

theorem runAlone_busy {s : State} (h : s.status.busy = true) :
    runAlone s = engineStep (Config.freePick s.draws) { s with draws := s.draws + 1 } := by simp [runAlone, h]

/-! ### The address map -/

theorem aligned_iff (addr : Addr) : aligned addr = true ↔ addr.toNat % 8 = 0 := by
  have h : (addr.extractLsb' 0 3).toNat = addr.toNat % 8 := by simp [BitVec.extractLsb'_toNat]
  rw [aligned, beq_iff_eq, ← BitVec.toNat_inj, h]
  simp

theorem aligned_false_iff (addr : Addr) : aligned addr = false ↔ addr.toNat % 8 ≠ 0 := by
  rw [← Bool.not_eq_true, aligned_iff]

/-- Each register is found at its offset. -/
theorem locate_regOffset (c : Config) (r : Reg) : locate c (regOffset r) = .reg r := by cases r <;> rfl

theorem aligned_regOffset (r : Reg) : aligned (regOffset r) = true := by cases r <;> rfl

theorem locate_keybuf {c : Config} {addr : Addr} {j : Nat} (hc : c.keycap ≤ 65536) (hj : j < c.keycap / 8)
    (ha : addr.toNat = 0x10000 + 8 * j) : locate c addr = .keybuf j := by
  have e : (addr.toNat - 0x10000) / 8 = j := by omega
  simp only [locate, e, Config.keywords]
  rw [if_neg (by omega), if_neg (by omega), if_neg (by omega), if_pos (by omega), if_pos hj]

theorem locate_bits {c : Config} {addr : Addr} {w : Nat} (hw : w < c.bitcap / 64)
    (ha : addr.toNat = 0x80000000 + 8 * w) : locate c addr = .bits w := by
  have e : (addr.toNat - 0x80000000) / 8 = w := by omega
  simp only [locate, e, Config.bitwords]
  rw [if_neg (by omega), if_neg (by omega), if_neg (by omega), if_neg (by omega), if_neg (by omega), if_pos hw]

theorem locate_idx {c : Config} {addr : Addr} {i : Nat} (hc : i < 256) (hi : i < c.kmax)
    (ha : addr.toNat = 0x800 + 8 * i) : locate c addr = .idx i := by
  have e : (addr.toNat - 0x800) / 8 = i := by omega
  simp only [locate, e]
  rw [if_neg (by omega), if_pos (by omega), if_pos hi]

/-- An aligned offset that falls on a register is that register's offset. -/
theorem eq_regOffset_of_locate {c : Config} {addr : Addr} {r : Reg} (ha : aligned addr = true)
    (h : locate c addr = .reg r) : addr = regOffset r := by
  rw [aligned_iff] at ha
  have hlt : addr.toNat < 0x800 := by
    by_contra hn
    simp only [locate, if_neg hn] at h
    split_ifs at h
  simp only [locate, if_pos hlt] at h
  have hr : regAt (addr.toNat / 8) = some r := by
    cases hx : regAt (addr.toNat / 8) with
    | none => rw [hx] at h; cases h
    | some x => rw [hx] at h; cases h; rfl
  have h17 : addr.toNat / 8 < 17 := by
    by_contra hn
    rw [regAt, List.getElem?_eq_none (by simpa using hn)] at hr
    cases hr
  have e : addr.toNat = 8 * (addr.toNat / 8) := by omega
  generalize addr.toNat / 8 = n at *
  apply BitVec.eq_of_toNat_eq
  rw [e]
  interval_cases n <;> (simp only [regAt, List.getElem?_cons_zero, List.getElem?_cons_succ, Option.some.injEq] at hr; subst hr; rfl)

/-! ### Bus accesses -/

theorem memRead_misaligned {addr : Addr} {s : State} (h : aligned addr = false) :
    memRead addr s = { flagMisaligned s with rdata := 0#64 } := by simp [memRead, h]

theorem memRead_free {addr : Addr} {s : State} (h : aligned addr = true) (hb : s.status.busy = true)
    (ho : isOut (locate s.cfg addr) = true) :
    memRead addr s = { s with rdata := Config.freeWord s.draws 0, draws := s.draws + 1 } := by
  simp [memRead, h, hb, ho]

theorem memRead_value {addr : Addr} {s : State} (h : aligned addr = true)
    (ho : (s.status.busy && isOut (locate s.cfg addr)) = false) :
    memRead addr s = { s with rdata := readRegion (locate s.cfg addr) s } := by
  simp only [memRead, h, ho, if_true, Bool.false_eq_true, if_false]

theorem memWrite_misaligned {addr : Addr} {v : Word} {s : State} (h : aligned addr = false) :
    memWrite addr v s = .next (flagMisaligned s) := by simp [memWrite, h]

theorem memWrite_aligned {addr : Addr} {v : Word} {s : State} (h : aligned addr = true) :
    memWrite addr v s = writeRegion (locate s.cfg addr) v s := by simp [memWrite, h]

/-- Everything a write to `CMD` can do. -/
theorem writeCmd_cases (v : Word) (s : State) :
    (v = abortWord ∧ writeCmd v s = .next (if s.status.busy then { s with abortReq := true } else s)) ∨
      (v ≠ abortWord ∧ s.status.busy = true ∧ writeCmd v s = .next (dropWrite s)) ∨
        (v ≠ abortWord ∧ s.status.busy = false ∧ writeCmd v s = .next (startCommand v s)) := by
  by_cases hv : v = abortWord
  · exact .inl ⟨hv, by simp [writeCmd, hv]⟩
  · cases hb : s.status.busy
    · exact .inr (.inr ⟨hv, rfl, by simp [writeCmd, hv, hb]⟩)
    · exact .inr (.inl ⟨hv, rfl, by simp [writeCmd, hv, hb]⟩)

/-- Everything a host write can do. -/
theorem memWrite_cases (addr : Addr) (v : Word) (s : State) :
    (addr.toNat % 8 ≠ 0 ∧ memWrite addr v s = .next (flagMisaligned s)) ∨
      memWrite addr v s = .next s ∨
      (s.status.busy = true ∧ memWrite addr v s = .next (dropWrite s)) ∨
      (addr = 0x10#32 ∧ memWrite addr v s = writeCmd v s) ∨
      (addr = 0x08#32 ∧ memWrite addr v s = .next { s with status := s.status.w1c v }) ∨
      (addr = 0x18#32 ∧ memWrite addr v s = .next { s with inten := intenOfWord v }) ∨
      (s.status.busy = false ∧ ∃ r, isIn r = true ∧ addr = regOffset r ∧ memWrite addr v s = .next (storeIn r v s)) ∨
      (s.status.busy = false ∧ ∃ j, j < s.cfg.keywords ∧
        memWrite addr v s = .next { s with keybuf := s.keybuf.setWord j v }) ∨
      (s.status.busy = false ∧ 0x80000000 ≤ addr.toNat ∧ ∃ w, w < s.cfg.bitwords ∧
        memWrite addr v s = .next { s with bits := s.bits.setWord w (v &&& validMask (visibleBits s) w) }) := by
  cases ha : aligned addr with
  | false => exact .inl ⟨(aligned_false_iff addr).1 ha, memWrite_misaligned ha⟩
  | true =>
    rw [memWrite_aligned ha]
    cases hl : locate s.cfg addr with
    | unmapped => exact .inr (.inl rfl)
    | idx i => exact .inr (.inl rfl)
    | keybuf j =>
      have hj : j < s.cfg.keywords := by
        simp only [locate] at hl
        split_ifs at hl <;> first | (cases hl; assumption) | (split at hl <;> cases hl)
      cases hb : s.status.busy
      · exact .inr (.inr (.inr (.inr (.inr (.inr (.inr (.inl ⟨rfl, j, hj, by simp [writeRegion, hb]⟩)))))))
      · exact .inr (.inr (.inl ⟨rfl, by simp [writeRegion, hb]⟩))
    | bits w =>
      have hw : 0x80000000 ≤ addr.toNat ∧ w < s.cfg.bitwords := by
        simp only [locate] at hl
        split_ifs at hl <;> first | (cases hl; omega) | (split at hl <;> cases hl)
      cases hb : s.status.busy
      · exact .inr (.inr (.inr (.inr (.inr (.inr (.inr (.inr ⟨rfl, hw.1, w, hw.2, by simp [writeRegion, hb]⟩)))))))
      · exact .inr (.inr (.inl ⟨rfl, by simp [writeRegion, hb]⟩))
    | reg r =>
      have hr := eq_regOffset_of_locate ha hl
      cases r
      case cmd => exact .inr (.inr (.inr (.inl ⟨hr, rfl⟩)))
      case status => exact .inr (.inr (.inr (.inr (.inl ⟨hr, rfl⟩))))
      case inten => exact .inr (.inr (.inr (.inr (.inr (.inl ⟨hr, rfl⟩)))))
      case id | h1 | h2 | result | probes | capKey | capK | capBits => exact .inr (.inl rfl)
      all_goals
        cases hb : s.status.busy
        · exact .inr (.inr (.inr (.inr (.inr (.inr (.inl ⟨rfl, _, rfl, hr, by simp [writeRegion, writeReg, hb]⟩))))))
        · exact .inr (.inr (.inl ⟨rfl, by simp [writeRegion, writeReg, hb]⟩))

/-! ### The engine -/

theorem completionStep_illegal {s : State} {e : Illegal} (h : decode s.lastcmd = .error e) :
    completionStep s = .next (raise .illegalCommand s) := by simp [completionStep, State.cur, h]

theorem completionStep_exec {s : State} {i : Instr} (h : decode s.lastcmd = .ok i) (hi : i ≠ .abort) :
    completionStep s = exec i s := by simp [completionStep, State.cur, h, hi]

theorem completionStep_abort {s : State} (h : decode s.lastcmd = .ok .abort) :
    completionStep s = .next (complete s) := by simp [completionStep, State.cur, h, execNop]

theorem engineStep_idle {b : Bool} {s : State} (h : s.status.busy = false) : engineStep b s = .next s := by
  simp [engineStep, h]

theorem engineStep_unaborted {b : Bool} {s : State} (h : s.status.busy = true) (ha : s.abortReq = false) :
    engineStep b s = completionStep s := by simp [engineStep, h, ha]

theorem abortableShape_eq_some {s : State} {i : Instr} {shape : Shape} (hd : decode s.lastcmd = .ok i)
    (hg : generatingShape i = some shape) (hf : filterOK shape s = true) : abortableShape s = some shape := by
  simp [abortableShape, State.cur, hd, hg, hf]

/-- Everything the engine's move can do. -/
theorem engineStep_cases (b : Bool) (s : State) :
    (s.status.busy = false ∧ engineStep b s = .next s) ∨
      (s.status.busy = true ∧ engineStep b s = completionStep s) ∨
        (s.status.busy = true ∧ s.abortReq = true ∧ ∃ i shape d, decode s.lastcmd = .ok i ∧
          generatingShape i = some shape ∧ filterOK shape s = true ∧ digest shape s = d ∧
            engineStep b s = .next (raise .aborted (writeAborted (writeDigest d s)))) := by
  cases hb : s.status.busy with
  | false => exact .inl ⟨rfl, engineStep_idle hb⟩
  | true =>
    cases ha : s.abortReq with
    | false => exact .inr (.inl ⟨rfl, engineStep_unaborted hb ha⟩)
    | true =>
      cases hx : abortableShape s with
      | none => exact .inr (.inl ⟨rfl, by simp [engineStep, hb, ha, hx]⟩)
      | some shape =>
        by_cases hp : (hangs shape s || b) = true
        · refine .inr (.inr ⟨rfl, rfl, ?_⟩)
          have he : engineStep b s = .next (abortStep shape s) := by
            simp only [engineStep, hb, ha, hx, if_true, abortOrComplete, hp]
          rw [abortStep] at he
          unfold abortableShape State.cur at hx
          cases hd : decode s.lastcmd with
          | error e => simp [hd] at hx
          | ok i =>
            simp only [hd] at hx
            cases hg : generatingShape i with
            | none => simp [hg] at hx
            | some sh =>
              simp only [hg] at hx
              by_cases hf : filterOK sh s = true
              · simp only [hf, if_true, Option.some.injEq] at hx
                subst hx
                exact ⟨i, sh, _, rfl, hg, hf, rfl, he⟩
              · simp [hf] at hx
        · exact .inr (.inl ⟨rfl, by simp only [engineStep, hb, ha, hx, if_true, abortOrComplete, if_neg hp]⟩)

/-! ### Placing a command -/

/-- A command placed by `withFetchWord` is run by the very next step (log entry 1). -/
theorem step_withFetchWord (s : State) (i : Instr) :
    step (s.withFetchWord 64 (encode i).toNat) = exec i (if i = .abort then s else startCommand (encode i) s) := by
  have hw : BitVec.ofNat 64 ((encode i).toNat % 2 ^ 64) = encode i := by cases i <;> rfl
  rw [State.withFetchWord, hw]
  by_cases hi : i = .abort
  · subst hi; rfl
  · have hne : encode i ≠ abortWord := by revert hi; cases i <;> decide
    have hd : decode (encode i) = .ok i := by cases i <;> rfl
    rw [placeCommand, if_neg hne, if_neg hi, step_cons rfl, takeTurn_engine, engineStep_unaborted rfl rfl]
    exact completionStep_exec hd hi

end Sys2Proof.Machine
end

