-- ==== Sys2Proof/Laws/Safety.lean ====
section
/-! SUPPORT. How the shared operations act on the invariant: one lemma per operation, for the statement about steps to cite. -/

namespace Sys2Proof.Machine

/-- The ranges of R6 as plain inequalities. -/
theorem Config.legal_iff (c : Config) :
    c.legal = true ↔
      (c.keycap % 8 = 0 ∧ 16 ≤ c.keycap ∧ c.keycap ≤ 65536) ∧ (1 ≤ c.kmax ∧ c.kmax ≤ 256) ∧
        (c.bitcap % 64 = 0 ∧ 64 ≤ c.bitcap ∧ c.bitcap ≤ 17179869184) := by
  simp [Config.legal, Config.keycapLegal, Config.kmaxLegal, Config.bitcapLegal, and_assoc]

/-- The host's own fields do not matter to the invariant, if draws only go up. -/
theorem State.Inv.hostFields {s : State} (h : s.Inv) (r : Word) (n : Nat) (ag : List Turn) :
    ({ s with rdata := r, draws := s.draws + n, agenda := ag } : State).Inv :=
  { h with
    idxDrawn := Memory.drawnBefore_of_fill rfl (Nat.le_add_right _ _) h.idxDrawn
    keybufDrawn := Memory.drawnBefore_of_fill rfl (Nat.le_add_right _ _) h.keybufDrawn
    bitsDrawn := Memory.drawnBefore_of_fill rfl (Nat.le_add_right _ _) h.bitsDrawn }

/-- An error's code is one of 1 to 4. -/
theorem Error.code_le (e : Error) : e.code.toNat ≤ 4 := by cases e <;> decide

/-- No error has the code 0. -/
theorem Error.code_ne_zero (e : Error) : e.code ≠ 0#8 := by cases e <;> decide

/-- Ending a command without error keeps the invariant. -/
theorem State.Inv.complete {s : State} (h : s.Inv) : (complete s).Inv :=
  { h with
    busyNotDone := fun x => by cases x
    busyNoErr := fun x => by cases x
    busyNoCode := fun x => by cases x
    abortBusy := fun x => by cases x }

/-- Ending a command with an error keeps the invariant. -/
theorem State.Inv.raise {s : State} (h : s.Inv) (e : Error) : (raise e s).Inv :=
  { h with
    busyNotDone := fun x => by cases x
    busyNoErr := fun x => by cases x
    busyNoCode := fun x => by cases x
    abortBusy := fun x => by cases x
    codeRange := e.code_le
    errHasCode := fun _ => e.code_ne_zero }

/-- Starting a command other than `ABORT` keeps the invariant. -/
theorem State.Inv.startCommand {s : State} (h : s.Inv) {v : Word} (hv : v ≠ abortWord) : (startCommand v s).Inv :=
  { h with
    busyNotDone := fun _ => rfl
    busyNoErr := fun _ => rfl
    busyNoCode := fun _ => rfl
    codeRange := Nat.zero_le 4
    errHasCode := fun x => by cases x
    abortBusy := fun x => by cases x
    lastNotAbort := hv }

/-- A change of `STATUS` that keeps `BUSY` and `ERRCODE` and sets neither `DONE` nor `ERR` keeps the invariant. -/
theorem State.Inv.statusOnly {s : State} (h : s.Inv) {x : Status} (hb : x.busy = s.status.busy)
    (hd : s.status.done = false → x.done = false) (he : s.status.err = false → x.err = false)
    (hc : x.errcode = s.status.errcode) : ({ s with status := x } : State).Inv :=
  { h with
    busyNotDone := fun b => hd (h.busyNotDone (hb ▸ b))
    busyNoErr := fun b => he (h.busyNoErr (hb ▸ b))
    busyNoCode := fun b => hc.trans (h.busyNoCode (hb ▸ b))
    codeRange := by
      change x.errcode.toNat ≤ 4
      rw [hc]; exact h.codeRange
    errHasCode := fun e => by
      change x.errcode ≠ 0#8
      rw [hc]
      refine h.errHasCode ?_
      by_contra hn
      rw [Bool.not_eq_true] at hn
      exact absurd e (by simp [he hn])
    abortBusy := fun a => hb.trans (h.abortBusy a) }

/-- Writing the digest keeps the invariant. -/
theorem State.Inv.writeDigest {s : State} (h : s.Inv) (d : Word × Word) : (writeDigest d s).Inv := { h with }

/-- Writing `K ≤ KMAX` indices keeps the invariant. -/
theorem State.Inv.writeIndices {s : State} (h : s.Inv) {L : List Nat} (p : Word) (hL : L.length ≤ s.cfg.kmax) :
    (writeIndices L p s).Inv :=
  { h with
    idxWf := wf_storeIndices (by show 8 * (0 + L.length) ≤ 8 * s.cfg.kmax; omega) h.idxWf
    idxDrawn := Memory.drawnBefore_of_fill (storeIndices_fill _ _ _) (Nat.le_refl _) h.idxDrawn }

/-- An exhausted generation's outputs keep the invariant. -/
theorem State.Inv.writeExhausted {s : State} (h : s.Inv) (p : Word) (hk : s.k.toNat ≤ s.cfg.kmax) :
    (writeExhausted p s).Inv :=
  { h with
    idxWf := wf_scrambleIndices _ (by show 8 * s.k.toNat ≤ 8 * s.cfg.kmax; omega) h.idxWf
    idxDrawn := Memory.drawnBefore_of_fill (scrambleIndices_fill _ _ _) (Nat.le_add_right _ _) h.idxDrawn
    keybufDrawn := Memory.drawnBefore_of_fill rfl (Nat.le_add_right _ _) h.keybufDrawn
    bitsDrawn := Memory.drawnBefore_of_fill rfl (Nat.le_add_right _ _) h.bitsDrawn }

/-- An aborted generation's outputs keep the invariant. -/
theorem State.Inv.writeAborted {s : State} (h : s.Inv) (hk : s.k.toNat ≤ s.cfg.kmax) : (writeAborted s).Inv :=
  { h with
    idxWf := wf_scrambleIndices _ (by show 8 * s.k.toNat ≤ 8 * s.cfg.kmax; omega) h.idxWf
    idxDrawn := Memory.drawnBefore_of_fill (scrambleIndices_fill _ _ _) (Nat.le_add_right _ _) h.idxDrawn
    keybufDrawn := Memory.drawnBefore_of_fill rfl (Nat.le_add_right _ _) h.keybufDrawn
    bitsDrawn := Memory.drawnBefore_of_fill rfl (Nat.le_add_right _ _) h.bitsDrawn }

/-- Another bit array in canonical form, with a fill drawn before, keeps the invariant. -/
theorem State.Inv.withBits {s : State} (h : s.Inv) {m : Memory} (hw : m.wf (s.cfg.bitcap / 8) = true)
    (hd : m.drawnBefore s.draws = true) : ({ s with bits := m } : State).Inv :=
  { h with bitsWf := hw, bitsDrawn := hd }

/-- Another key buffer in canonical form, with a fill drawn before, keeps the invariant. -/
theorem State.Inv.withKeybuf {s : State} (h : s.Inv) {m : Memory} (hw : m.wf s.cfg.keycap = true)
    (hd : m.drawnBefore s.draws = true) : ({ s with keybuf := m } : State).Inv :=
  { h with keybufWf := hw, keybufDrawn := hd }

/-- A result of at most `BITCAP` keeps the invariant. -/
theorem State.Inv.withResult {s : State} (h : s.Inv) {r : Word} (hr : r.toNat ≤ s.cfg.bitcap) :
    ({ s with result := r } : State).Inv :=
  { h with resultBound := hr }

/-- Storing an input register keeps the invariant. -/
theorem State.Inv.storeIn {s : State} (h : s.Inv) (r : Reg) (v : Word) : (storeIn r v s).Inv := by
  cases r <;> exact { h with }

/-- Reset keeps the invariant. -/
theorem State.Inv.resetStep {s : State} (h : s.Inv) : (resetStep s).Inv where
  cfgLegal := h.cfgLegal
  idxWf := Memory.wf_empty _ _
  keybufWf := Memory.wf_empty _ _
  bitsWf := Memory.wf_empty _ _
  busyNotDone := fun x => by cases x
  busyNoErr := fun x => by cases x
  busyNoCode := fun x => by cases x
  codeRange := Nat.zero_le 4
  errHasCode := fun x => by cases x
  abortBusy := fun x => by cases x
  lastNotAbort := (by decide : (0#64 : Word) ≠ abortWord)
  resultBound := Nat.zero_le _
  idxDrawn := by simp [Memory.drawnBefore]
  keybufDrawn := by simp [Memory.drawnBefore]
  bitsDrawn := by simp [Memory.drawnBefore]

end Sys2Proof.Machine
end

