-- ==== Sys2Proof/Tests/Slice0.lean ====
section
/-! SUPPORT. Tests of the model against the spec's own vectors (95_test_vectors.md, named V-… and P-…) and its rules' examples,
and for each statement with hypotheses a witness that meets them. -/

namespace Sys2Proof.Tests

open Sys2Proof Sys2Proof.Machine Sys2Proof.Claims

/-! ### Small machines -/

/-- A small legal configuration. -/
def tiny : Config := { Config.reference with keycap := 16, kmax := 16, bitcap := 1024 }

/-- An idle small machine whose arrays are all zero. -/
def blank : State := { State.reset with cfg := tiny, idx := Memory.zeroed, keybuf := Memory.zeroed, bits := Memory.zeroed }

/-- The machine with a command running and `K`, `M` set. -/
def busy (i : Instr) (k m : Word) : State := { startCommand (encode i) blank with k := k, m := m }

/-- The machine with `'hello'` in the key buffer. -/
def withHello (s : State) : State :=
  { s with
    keybuf := { fill := .zero, cells := [(0, 0x68#8), (1, 0x65#8), (2, 0x6C#8), (3, 0x6C#8), (4, 0x6F#8)] }
    keylen := 5 }

/-- The state of an outcome, or the one given. -/
def after (s : State) : Host.Outcome State Fault Refusal → State
  | .next t => t
  | .fault _ | .refused _ => s

/-- One command's completion. -/
def ran (i : Instr) (s : State) : State := after s (exec i s)

/-- One step. -/
def stepped (s : State) : State := after s (step s)

/-- The machine with moves to come. -/
def willDo (s : State) (l : List Turn) : State := { s with agenda := l }

/-! ### Well-formedness -/

theorem test_reference_config_legal : Config.reference.legal = true ∧ tiny.legal = true := by decide

/-- `KEYCAP` must be a multiple of 8 in [16, 65536] (R6). -/
theorem test_bad_keycap_refused :
    ({ tiny with keycap := 20 } : Config).legal = false ∧ ({ tiny with keycap := 8 } : Config).legal = false ∧
      ({ tiny with keycap := 65544 } : Config).legal = false := by decide

/-- `KMAX` must lie in [1, 256] (R6). -/
theorem test_bad_kmax_refused :
    ({ tiny with kmax := 0 } : Config).legal = false ∧ ({ tiny with kmax := 257 } : Config).legal = false := by decide

/-- `BITCAP` must be a multiple of 64 in [64, 2^34] (R6). -/
theorem test_bad_bitcap_refused :
    ({ tiny with bitcap := 100 } : Config).legal = false ∧ ({ tiny with bitcap := 0 } : Config).legal = false ∧
      ({ tiny with bitcap := 17179869248 } : Config).legal = false := by decide

/-! ### Decoding -/

/-- Each command's word, as RSV, SHAPE, OP (R100 to R102). -/
theorem test_decode_words :
    decode (0#54 ++ 0#2 ++ 0x00#8) = .ok .nop ∧ decode (0#54 ++ 0#2 ++ 0x01#8) = .ok .hashBytes ∧
      decode (0#54 ++ 1#2 ++ 0x01#8) = .ok .hashU32 ∧ decode (0#54 ++ 2#2 ++ 0x01#8) = .ok .hashU64 ∧
      decode (0#54 ++ 0#2 ++ 0x02#8) = .ok .indexBytes ∧ decode (0#54 ++ 1#2 ++ 0x02#8) = .ok .indexU32 ∧
      decode (0#54 ++ 2#2 ++ 0x02#8) = .ok .indexU64 ∧ decode (0#54 ++ 0#2 ++ 0x03#8) = .ok .addBytes ∧
      decode (0#54 ++ 1#2 ++ 0x03#8) = .ok .addU32 ∧ decode (0#54 ++ 2#2 ++ 0x03#8) = .ok .addU64 ∧
      decode (0#54 ++ 0#2 ++ 0x04#8) = .ok .testBytes ∧ decode (0#54 ++ 1#2 ++ 0x04#8) = .ok .testU32 ∧
      decode (0#54 ++ 2#2 ++ 0x04#8) = .ok .testU64 ∧ decode (0#54 ++ 0#2 ++ 0x05#8) = .ok .clear ∧
      decode (0#54 ++ 0#2 ++ 0x06#8) = .ok .popcnt ∧ decode (0#54 ++ 0#2 ++ 0x0F#8) = .ok .abort := by decide

/-- The illegal words of 95_test_vectors.md, each by its reason (R110). -/
theorem test_decode_rejects :
    decode 0x301#64 = .error .shapeThree ∧ decode 0x105#64 = .error .shapeOnKeyless ∧
      decode 0x007#64 = .error .unassignedOp ∧ decode 0x0FF#64 = .error .unassignedOp ∧
      decode 0x400#64 = .error .reservedBits ∧ decode 0x8000000000000001#64 = .error .reservedBits ∧
      decode 0x10F#64 = .error .shapeOnKeyless := by decide

/-- The table's words through the host's interface, and one it does not hold. -/
theorem test_decode_table_words :
    decodeTableWord 64 0x203 = some .addU64 ∧ decodeTableWord 16 0x104 = some .testU32 ∧ decodeTableWord 64 0x301 = none := by
  decide

/-! ### The hash unit -/

/-- Mixing functions at the values of 95_test_vectors.md. -/
theorem test_mixing_vectors :
    mix1 0xFFFFFFFFFFFFFFFF#64 = 0x11CC7F70ECDB6E49#64 ∧ mix2 0xFFFFFFFFFFFFFFFF#64 = 0x4C9A36C55305E8AD#64 ∧
      fmix64 1#64 = 0xB456BCFC34C2CB2C#64 ∧ fmix64 0x8000000000000000#64 = 0x8F780810AF31A493#64 := by decide

/-- V-H4, V-H5: a tail byte of 0x80 under both settings of `TAIL_SIGN_EXTEND`. -/
theorem test_tail_sign :
    establish false [0x80#8] 0#64 = (0x61619A676395018A#64, 0x04D49BF29C500821#64) ∧
      establish true [0x80#8] 0#64 = (0xB6AA75AFF6F3B434#64, 0x6EC0210D9AB133C5#64) := by decide

/-- V-H7: several sign-extended tail bytes accumulate by xor. -/
theorem test_tail_sign_xor :
    establish true [0xFF#8, 0xFF#8, 0xFF#8] 0#64 = (0x80F444D960A5152D#64, 0x7A6203E28A39DEFD#64) := by decide

/-- V-H11: the longest tail. -/
theorem test_longest_tail :
    establish false ((List.range 15).map (BitVec.ofNat 8)) 0#64 = (0x47231598FD4925E9#64, 0xCD846DEE88C67DE9#64) := by
  decide

/-- V-H13 and V-H14: a block with a one-byte tail, and two blocks under the seed of BLOOMIER's scenario. -/
theorem test_blocks :
    establish false ((List.range 17).map (BitVec.ofNat 8)) 0#64 = (0x5C76F40F9FE7C20E#64, 0xC15F026B9EDAA824#64) ∧
      establish false ((List.range 32).map (BitVec.ofNat 8)) 0x1638567#64 =
        (0x61C016FABEE21418#64, 0x8016910C634E1984#64) := by decide

/-- V-GK2: the 43-byte key, from general knowledge outside the source. -/
theorem test_quick_brown_fox :
    establish false
        [0x54#8, 0x68#8, 0x65#8, 0x20#8, 0x71#8, 0x75#8, 0x69#8, 0x63#8, 0x6B#8, 0x20#8, 0x62#8, 0x72#8, 0x6F#8, 0x77#8,
          0x6E#8, 0x20#8, 0x66#8, 0x6F#8, 0x78#8, 0x20#8, 0x6A#8, 0x75#8, 0x6D#8, 0x70#8, 0x73#8, 0x20#8, 0x6F#8, 0x76#8,
          0x65#8, 0x72#8, 0x20#8, 0x74#8, 0x68#8, 0x65#8, 0x20#8, 0x6C#8, 0x61#8, 0x7A#8, 0x79#8, 0x20#8, 0x64#8, 0x6F#8,
          0x67#8] 0#64 = (0xE34BBC7BBC071B6C#64, 0x7A433CA9C49A9347#64) := by decide

/-- V-H8: `HASH.BYTES` of `'hello'`. -/
theorem test_hash_bytes :
    let t := ran .hashBytes (withHello (busy .hashBytes 0 0))
    t.h1 = 0xCBD8A7B341BD9B02#64 ∧ t.h2 = 0x5B1E906A48AE1D19#64 ∧ t.status.toWord = 0x2#64 := by decide

/-- V-H23: `KEYLEN = KEYCAP + 1`. -/
theorem test_hash_bytes_too_long :
    let t := ran .hashBytes { busy .hashBytes 0 0 with keylen := 17 }
    t.h1 = 0#64 ∧ t.status.toWord = 0x106#64 := by decide

/-- V-H18: the high half of `KEYVAL` is ignored. -/
theorem test_hash_u32 :
    let t := ran .hashU32 { busy .hashU32 0 0 with keyval := 0xFFFFFFFF01020304#64 }
    t.h1 = 0x0A0090A9DA040FE3#64 ∧ t.h2 = 0xEADC23F882B31773#64 := by decide

/-- V-H17: `INT32_ORDER = LITTLE`. -/
theorem test_hash_u32_little :
    let t := ran .hashU32 { busy .hashU32 0 0 with cfg := { tiny with int32Order := .little }, keyval := 0x01020304#64 }
    t.h1 = 0x6B1F5992F69E9E54#64 ∧ t.h2 = 0x8EE80D9AEF7458B5#64 := by decide

/-- V-H19: `HASH.U64`. -/
theorem test_hash_u64 :
    let t := ran .hashU64 { busy .hashU64 0 0 with keyval := 0x0102030405060708#64 }
    t.h1 = 0x9CE80CA5EF93BFDC#64 ∧ t.h2 = 0xC567E5E6B655AC07#64 := by decide

/-- V-H20: `INT64_ORDER = LITTLE`. -/
theorem test_hash_u64_little :
    let t := ran .hashU64
      { busy .hashU64 0 0 with cfg := { tiny with int64Order := .little }, keyval := 0x0102030405060708#64 }
    t.h1 = 0x9377698977526192#64 ∧ t.h2 = 0x72BBC33E537B13A0#64 := by decide

/-! ### Index generation -/

/-- V-IDX-1: `INDEX.BYTES` of `'hello'`. -/
theorem test_index_bytes :
    let t := ran .indexBytes (withHello (busy .indexBytes 3 1000))
    t.idx.word 0 = 498#64 ∧ t.idx.word 1 = 931#64 ∧ t.idx.word 2 = 364#64 ∧ t.probes = 3#64 := by decide

/-- V-IDX-13: the empty key under seed 0 with a limit. -/
theorem test_index_bytes_exhausted :
    let t := ran .indexBytes { busy .indexBytes 2 8 with plim := 5 }
    t.probes = 5#64 ∧ t.status.toWord = 0x206#64 := by decide

/-- V-IDX-5: two duplicates skipped. -/
theorem test_index_u32 :
    let t := ran .indexU32 (busy .indexU32 5 11)
    t.idx.word 0 = 8#64 ∧ t.idx.word 1 = 6#64 ∧ t.idx.word 2 = 4#64 ∧ t.idx.word 3 = 10#64 ∧ t.idx.word 4 = 1#64 ∧
      t.probes = 7#64 := by decide

/-- V-IDX-10: `K > M` without a limit leaves the machine as it is, still busy. -/
theorem test_index_u32_hangs : ran .indexU32 (busy .indexU32 9 8) = busy .indexU32 9 8 := by decide

/-- V-IDX-15: `INDEX.U64` whose candidates alternate between two values. -/
theorem test_index_u64 :
    let t := ran .indexU64
      { busy .indexU64 4 64 with seed := 0x1638567#64, keyval := 0x0102030405060708#64, plim := 1000 }
    t.probes = 1000#64 ∧ t.status.toWord = 0x206#64 := by decide

/-! ### The filter -/

/-- R236's example: `ADD.BYTES` of `'hello'`, as the window shows it. -/
theorem test_add_bytes :
    let t := ran .addBytes (withHello (busy .addBytes 3 1000))
    t.bits.word 5 = 0x0000100000000000#64 ∧ t.bits.word 7 = 0x0004000000000000#64 ∧
      t.bits.word 14 = 0x0000000800000000#64 ∧ t.bits.cells.length = 3 := by decide

/-- V-F9: all or nothing. -/
theorem test_add_u32_exhausted :
    let t := ran .addU32 { busy .addU32 9 8 with plim := 100 }
    t.bits = Memory.zeroed ∧ t.status.toWord = 0x206#64 := by decide

/-- V-IDX-7 through `ADD.U32`: `K = M = 8` sets all eight bits. -/
theorem test_add_u32 : (ran .addU32 (busy .addU32 8 8)).bits.byte 0 = 0xFF#8 := by decide

/-- `ADD.U64` sets one bit, at the first candidate of V-H19's digest: `0x1CE80CA5EF93BFDC mod 64 = 28` (R201). -/
theorem test_add_u64 :
    (ran .addU64 { busy .addU64 1 64 with keyval := 0x0102030405060708#64 }).bits.cells = [(3, 0x10#8)] := by decide

/-- R239's example: after `ADD` of `'hello'`, `TEST` of it gives 1. -/
theorem test_test_bytes_hit :
    (ran .testBytes (withHello { busy .testBytes 3 1000 with
      bits := { fill := .zero, cells := [(45, 0x10#8), (62, 0x04#8), (116, 0x08#8)] } })).result = 1#64 := by decide

/-- Two of the three bits are not enough. -/
theorem test_test_bytes_miss :
    (ran .testBytes (withHello { busy .testBytes 3 1000 with
      result := 1, bits := { fill := .zero, cells := [(45, 0x10#8), (62, 0x04#8)] } })).result = 0#64 := by decide

/-- On an error `RESULT` keeps its old value (R239). -/
theorem test_test_u32_error_keeps_result :
    let t := ran .testU32 { busy .testU32 0 8 with result := 1 }
    t.result = 1#64 ∧ t.status.toWord = 0x106#64 := by decide

/-- Only bit 28 of 64 set: V-H19's key is found with one index. -/
theorem test_test_u64 :
    (ran .testU64 { busy .testU64 1 64 with
      keyval := 0x0102030405060708#64, bits := { fill := .zero, cells := [(3, 0x10#8)] } }).result = 1#64 := by decide

/-- V-F11: `CLEAR` needs no legal parameters, and zeroes what reset left free. -/
theorem test_clear :
    let t := ran .clear { busy .clear 0 0 with bits := { fill := .free 2, cells := [(5, 1#8)] } }
    t.bits.word 0 = 0#64 ∧ t.bits.byte 127 = 0#8 ∧ t.status.toWord = 0x2#64 := by decide

/-- Bits at or beyond `M` are not counted (R246). -/
theorem test_popcnt :
    (ran .popcnt { busy .popcnt 0 12 with bits := { fill := .zero, cells := [(0, 0x81#8), (1, 0xF8#8), (2, 0xFF#8)] } }).result
      = 3#64 := by decide

/-- V-F10: `M = 7`. -/
theorem test_popcnt_bad_m :
    let t := ran .popcnt { busy .popcnt 0 7 with result := 9 }
    t.result = 9#64 ∧ t.status.toWord = 0x106#64 := by decide

/-! ### The command's life -/

/-- R138's example: from `STATUS = 0x306`, `run NOP` ends with `STATUS = 0x2`. -/
theorem test_nop :
    let s := { blank with status := { Status.reset with done := true, err := true, errcode := 3 } }
    s.status.toWord = 0x306#64 ∧ (ran .nop (startCommand 0#64 s)).status.toWord = 0x2#64 := by decide

/-- V-L4: `WERR` and `AERR` are sticky through a command. -/
theorem test_nop_sticky :
    (ran .nop (startCommand 0#64 { blank with status := { Status.reset with done := true, werr := true, aerr := true } })).status.toWord
      = 0x1A#64 := by decide

/-- The encoding vectors: `0x00F` while busy requests an abort; idle, it changes nothing, not even `CMD`'s readback. -/
theorem test_abort :
    (stepped (willDo (busy .nop 0 0) [cmdTurn .abort])).abortReq = true ∧
      stepped (willDo blank [cmdTurn .abort]) = blank := by decide

/-- V-L8, P4: an abort of a hung generation, with `WERR` left by a dropped write, ends with `STATUS = 0x40E` and the digest. -/
theorem test_abort_of_a_hung_generation :
    let s := { busy .indexU32 9 8 with abortReq := true, agenda := [.engine false] }
    let t := stepped { s with status := { s.status with werr := true } }
    t.status.toWord = 0x40E#64 ∧ t.h1 = 0xCFA0F7DDD84C76BC#64 ∧ t.h2 = 0x589623161CF526F1#64 ∧ t.abortReq = false := by
  decide

/-- Decode vector 0x301: the illegal word ends with `STATUS = 0x306` and stays readable in `CMD`. -/
theorem test_illegal_word :
    let t := stepped (State.withFetchWord blank 64 0x301)
    t.status.toWord = 0x306#64 ∧ readReg .cmd t = 0x301#64 := by decide

/-- `withFetchWord` runs the command in the next step, from reset too (log entry 1). -/
theorem test_fetch_from_reset :
    (stepped (State.reset.withFetchWord 64 0x006)).status.toWord = 0x106#64 ∧
      (stepped (State.reset.withFetchWord 64 0x000)).status.toWord = 0x2#64 := by decide

/-! ### The bus -/

/-- V-L6: W1C of `DONE`; `irq` falls with it. -/
theorem test_w1c :
    let s := { blank with status := { Status.reset with done := true, err := true, errcode := 3 }, inten := intenOfWord 1#64 }
    let t := stepped (willDo s [wrReg .status 0x2#64])
    irq s = true ∧ t.status.toWord = 0x304#64 ∧ irq t = false := by decide

/-- V-M3, V-M4: misaligned accesses. -/
theorem test_misaligned :
    let t := stepped (willDo { blank with rdata := 7 } [.read 0x0C#32])
    let u := stepped (willDo blank [.write 0x21#32 5#64])
    t.rdata = 0#64 ∧ t.status.toWord = 0x10#64 ∧ u.seed = 0#64 ∧ u.status.toWord = 0x10#64 := by decide

/-- V-M7: the bit window is masked by `M` on the write. -/
theorem test_bit_window :
    (stepped (willDo { blank with m := 1000 } [wrBits 15 0xFFFFFFFFFFFFFFFF#64])).bits.word 15 = 0x000000FFFFFFFFFF#64 := by
  decide

/-- V-M10: the key window is little-endian. -/
theorem test_key_window :
    let t := stepped (willDo blank [wrKeybuf 0 0x0000006F6C6C6568#64])
    keybufBytes 5 t = [0x68#8, 0x65#8, 0x6C#8, 0x6C#8, 0x6F#8] := by decide

/-- P1, lines 6 and 7: `loadkey 'hello'` writes that word and the length. -/
theorem test_loadkey :
    loadKey [0x68#8, 0x65#8, 0x6C#8, 0x6C#8, 0x6F#8] =
      [.write 0x10000#32 0x0000006F6C6C6568#64, .write 0x40#32 5#64] := by decide

/-- V-M1, V-M2: the identification registers, in the reference configuration. -/
theorem test_constant_registers :
    readReg .id State.reset = 0x4D33424600010007#64 ∧ readReg .capKey State.reset = 4096#64 ∧
      readReg .capK State.reset = 64#64 ∧ readReg .capBits State.reset = 0x2000000#64 := by decide

/-- Reset ends a hung command and leaves the block idle (R291). -/
theorem test_reset_of_a_hung_command :
    let t := stepped (willDo (busy .indexU32 9 8) [.reset])
    t.status.toWord = 0#64 ∧ t.k = 0#64 ∧ t.lastcmd = 0#64 ∧ t.cfg = tiny := by decide

/-! ### Witnesses: the hypotheses of the statements can be met, clause by clause -/

/-- A word no command has, as `IllegalWordEndsWithIllegalCommand` takes it. -/
theorem illegal_word_decodes_to_nothing (i : Instr) : decode 0x301#64 ≠ .ok i := by
  rw [show decode 0x301#64 = .error .shapeThree by decide]
  exact fun h => by cases h

theorem witness_StepRunsTheDecodedCommand :
    (let s := willDo (busy .clear 0 0) [.engine true]
     s.agenda = .engine true :: [] ∧ s.status.busy = true ∧ s.abortReq = false ∧ decode s.lastcmd = .ok .clear ∧
       Instr.clear ≠ .abort) ∧
      (willDo blank [.write 0x10#32 0x00F#64]).agenda = .write 0x10#32 0x00F#64 :: [] ∧
        (∀ t ∈ [Turn.engine true, Turn.wait],
          (willDo blank [t]).agenda = t :: [] ∧ (willDo blank [t]).status.busy = false) ∧
          (blank.agenda = [] ∧ blank.status.busy = false) ∧
            ((willDo (busy .clear 0 0) []).agenda = [] ∧ (willDo (busy .clear 0 0) []).status.busy = true) ∧
              (willDo (busy .clear 0 0) [.wait]).agenda = .wait :: [] := by decide

theorem witness_CommandWriteStartsTheCommand :
    (willDo blank [.write 0x10#32 0x10F#64]).agenda = .write 0x10#32 0x10F#64 :: [] ∧ blank.status.busy = false ∧
      0x10F#64 ≠ 0x00F#64 := by decide

theorem witness_IllegalWordEndsWithIllegalCommand :
    (willDo blank [.write 0x10#32 0x301#64, .engine true]).agenda = .write 0x10#32 0x301#64 :: .engine true :: [] ∧
      blank.status.busy = false ∧ ∀ i, decode 0x301#64 ≠ .ok i := ⟨rfl, rfl, illegal_word_decodes_to_nothing⟩

theorem witness_BusyCommandWriteIsDropped :
    (willDo (busy .nop 0 0) [.write 0x10#32 0x000#64]).agenda = .write 0x10#32 0x000#64 :: [] ∧
      (busy .nop 0 0).status.busy = true ∧ 0x000#64 ≠ 0x00F#64 := by decide

theorem witness_IdleAbortIsIgnored :
    (willDo blank [.write 0x10#32 0x00F#64]).agenda = .write 0x10#32 0x00F#64 :: [] ∧ blank.status.busy = false := by
  decide

theorem witness_AbortOnlyRequests : (busy .addU32 1 8).status.busy = true ∧ blank.status.busy = false := by decide

/-- The key of `KEYVAL = 0` with shape `U32` (R174). -/
theorem keyIs_zero_u32 {s : State} (hv : s.keyval = 0#64) (ho : s.cfg.int32Order = .big) :
    KeyIs .u32 s [0#8, 0#8, 0#8, 0#8] := by
  simp only [KeyIs]
  rw [hv, ho]
  decide

/-- The key of `KEYVAL = 0x0102030405060708` with shape `U64` (R175). -/
theorem keyIs_counting_u64 {s : State} (hv : s.keyval = 0x0102030405060708#64) (ho : s.cfg.int64Order = .big) :
    KeyIs .u64 s [1#8, 2#8, 3#8, 4#8, 5#8, 6#8, 7#8, 8#8] := by
  simp only [KeyIs]
  rw [hv, ho]
  decide

/-- The empty key (R106). -/
theorem keyIs_empty {s : State} (hl : s.keylen = 0#64) : KeyIs .bytes s [] := by
  unfold KeyIs
  rw [hl]
  exact ⟨rfl, fun j h => absurd h (Nat.not_lt_zero j)⟩

/-- A key as long as the key buffer: `KEYLEN = KEYCAP = 16` (R45). -/
theorem keyIs_full_buffer {s : State} (hl : s.keylen = 16#64) (hb : s.keybuf = Memory.zeroed) :
    KeyIs .bytes s (List.replicate 16 0#8) := by
  simp only [KeyIs]
  rw [hl, hb]
  decide

/-- `K` and `M` legal for the small machine. -/
theorem paramsOK_u32 {s : State} (k m : Word) (hc : s.cfg = tiny) (hk : s.k = k) (hm : s.m = m)
    (h : (1 ≤ k.toNat ∧ k.toNat ≤ 16) ∧ 8 ≤ m.toNat ∧ m.toNat ≤ 1024) : ParamsOK .u32 s := by
  subst hk hm
  unfold ParamsOK
  rw [hc]
  exact ⟨h.1, h.2, fun h => by cases h⟩

/-- Both engine moves, on a command that can complete (`K = M = 8`) and on one that cannot (`K = 9 > M`). -/
theorem witness_RequestedAbortAdmitsBothEnds :
    (∀ b, ∀ k ∈ [8#64, 9#64],
      let s := { busy .addU32 k 8 with abortReq := true, agenda := [.engine b] }
      s.agenda = .engine b :: [] ∧ s.status.busy = true ∧ s.abortReq = true ∧ decode s.lastcmd = .ok .addU32 ∧
        (Instr.addU32, Shape.u32) ∈ filterCommands ∧ ParamsOK .u32 s ∧ KeyIs .u32 s [0#8, 0#8, 0#8, 0#8]) ∧
      (let d := establish false [0#8, 0#8, 0#8, 0#8] 0#64
       hashes d.1 d.2 8 8 0#64 ≠ .never ∧ hashes d.1 d.2 9 8 0#64 = .never) := by
  refine ⟨fun b k hk => ?_, by decide⟩
  simp only [List.mem_cons, List.not_mem_nil, or_false] at hk
  have hp : (1 ≤ k.toNat ∧ k.toNat ≤ 16) ∧ 8 ≤ (8#64).toNat ∧ (8#64).toNat ≤ 1024 := by
    obtain rfl | rfl := hk <;> decide
  exact ⟨rfl, rfl, rfl, (by decide : decode (encode .addU32) = .ok .addU32), by decide,
    paramsOK_u32 k 8#64 rfl rfl rfl hp, keyIs_zero_u32 rfl rfl⟩

/-- A command that generates nothing, an `INDEX` whose `K` is 0, and a word no command has. -/
theorem witness_AbortTouchesNoOtherCommand :
    (let s := { busy .popcnt 0 0 with abortReq := true, agenda := [.engine true] }
     s.status.busy = true ∧ decode s.lastcmd = .ok .popcnt ∧ ∀ shape, (Instr.popcnt, shape) ∉ filterCommands) ∧
      (let s := { busy .indexU32 0 8 with abortReq := true, agenda := [.engine true] }
       s.status.busy = true ∧ decode s.lastcmd = .ok .indexU32 ∧
         ∀ shape, (Instr.indexU32, shape) ∈ filterCommands → ¬ ParamsOK shape s) ∧
        (let s := { startCommand 0x301#64 blank with abortReq := true, agenda := [.engine true] }
         s.agenda = .engine true :: [] ∧ s.status.busy = true ∧ ∀ i, decode s.lastcmd ≠ .ok i) := by
  refine ⟨⟨rfl, by decide, fun sh => by cases sh <;> decide⟩, ⟨rfl, by decide, fun sh _ h => ?_⟩, rfl, rfl,
    illegal_word_decodes_to_nothing⟩
  exact absurd h.1.1 (by decide)

theorem busy_running (i : Instr) (k m : Word) : (busy i k m).Running := ⟨rfl, rfl, rfl, rfl⟩

/-- Operands on each side of every bound of R264's table. -/
theorem witness_InvalidParameterExactlyAsTabulated :
    (∀ i, (busy i 1 8).Running) ∧
      (BadOperands .hashBytes { busy .hashBytes 0 0 with keylen := 17 } ∧
        ¬ BadOperands .hashBytes { busy .hashBytes 0 0 with keylen := 16 }) ∧
      (BadOperands .addU32 (busy .addU32 0 8) ∧ BadOperands .addU32 (busy .addU32 17 8) ∧
        BadOperands .addU32 (busy .addU32 1 7) ∧ BadOperands .addU32 (busy .addU32 1 1025) ∧
          ¬ BadOperands .addU32 (busy .addU32 1 8) ∧ ¬ BadOperands .addU32 (busy .addU32 16 1024)) ∧
      (BadOperands .testBytes { busy .testBytes 1 8 with keylen := 17 } ∧
        ¬ BadOperands .testBytes { busy .testBytes 1 8 with keylen := 16 }) ∧
      (BadOperands .popcnt (busy .popcnt 0 7) ∧ BadOperands .popcnt (busy .popcnt 0 1025) ∧
        ¬ BadOperands .popcnt (busy .popcnt 0 8) ∧ ¬ BadOperands .popcnt (busy .popcnt 0 1024)) := by
  refine ⟨fun i => busy_running i 1 8, ?_⟩
  simp only [BadOperands]
  decide

/-- One command outside every class, and one inside each. -/
theorem witness_CommandsWriteOnlyTheirOutputs :
    exec .nop blank = .next (complete blank) ∧ (∀ shape, (Instr.nop, shape) ∉ hashCommands ++ filterCommands) ∧
      (∀ shape, (Instr.nop, shape) ∉ testCommands) ∧ Instr.nop ≠ .popcnt ∧
        (∀ shape, (Instr.nop, shape) ∉ addCommands) ∧ Instr.nop ≠ .clear ∧ blank.k.toNat ≤ 0 :=
  ⟨rfl, fun sh => by cases sh <;> decide, fun sh => by cases sh <;> decide, by decide,
    fun sh => by cases sh <;> decide, by decide, by decide⟩

theorem witness_TailMixingOfAShortTail :
    (List.replicate 8 0xFF#8).length % 16 ≤ 8 ∧ (List.replicate 16 0xFF#8).length % 16 = 0 := by decide

/-- Each shape; for `BYTES` the shortest and the longest key. -/
theorem witness_HashWritesTheDigest :
    ((Instr.hashBytes, Shape.bytes) ∈ hashCommands ∧
        (let s := busy .hashBytes 0 0
         KeylenOK .bytes s ∧ KeyIs .bytes s []) ∧
        (let s := { busy .hashBytes 0 0 with keylen := 16 }
         KeylenOK .bytes s ∧ KeyIs .bytes s (List.replicate 16 0#8))) ∧
      ((Instr.hashU32, Shape.u32) ∈ hashCommands ∧ KeylenOK .u32 (busy .hashU32 0 0) ∧
        KeyIs .u32 (busy .hashU32 0 0) [0#8, 0#8, 0#8, 0#8]) ∧
      ((Instr.hashU64, Shape.u64) ∈ hashCommands ∧
        (let s := { busy .hashU64 0 0 with keyval := 0x0102030405060708#64 }
         KeylenOK .u64 s ∧ KeyIs .u64 s [1#8, 2#8, 3#8, 4#8, 5#8, 6#8, 7#8, 8#8])) :=
  ⟨⟨by decide, ⟨fun _ => by decide, keyIs_empty rfl⟩, fun _ => by decide, keyIs_full_buffer rfl rfl⟩,
    ⟨by decide, (fun h => by cases h), keyIs_zero_u32 rfl rfl⟩, by decide, (fun h => by cases h),
    keyIs_counting_u64 rfl rfl⟩

/-- The four zero bytes as a raw key, beside the same key as an integer. -/
def fourZeroBytes (i : Instr) (k m : Word) : State := { busy i k m with keylen := 4 }

theorem sameKey_zero (i i' : Instr) (k m : Word) :
    SameKey .u32 (busy i k m) .bytes (fourZeroBytes i' k m) := by
  refine ⟨rfl, rfl, [0#8, 0#8, 0#8, 0#8], keyIs_zero_u32 rfl rfl, ?_⟩
  simp only [KeyIs]
  exact ⟨rfl, (by decide : ∀ j, j < (4#64).toNat → [0#8, 0#8, 0#8, 0#8][j]? = some (Memory.zeroed.byte j))⟩

/-- One key as an integer and as bytes, hashed by two commands (R298). -/
theorem witness_DigestDependsOnKeyAndSeedOnly :
    let s := busy .hashU32 1 8
    let u := fourZeroBytes .indexBytes 1 8
    (Instr.hashU32, Shape.u32) ∈ hashCommands ++ filterCommands ∧
      (Instr.indexBytes, Shape.bytes) ∈ hashCommands ++ filterCommands ∧ s.Running ∧ u.Running ∧
        SameKey .u32 s .bytes u ∧ exec .hashU32 s = .next (ran .hashU32 s) ∧
          exec .indexBytes u = .next (ran .indexBytes u) ∧ (ran .hashU32 s).EndedOK ∧ (ran .indexBytes u).EndedOK :=
  ⟨by decide, by decide, ⟨rfl, rfl, rfl, rfl⟩, ⟨rfl, rfl, rfl, rfl⟩, sameKey_zero _ _ _ _, rfl, rfl,
    ⟨by decide, by decide, by decide⟩, ⟨by decide, by decide, by decide⟩⟩

/-- The ends of the ranges of `k` and `m`. -/
theorem witness_GenerationTakesTheFirstKDistinctCandidates :
    (1 ≤ 1 ∧ 8 ≤ 8 ∧ 8 ≤ 17179869184) ∧ (1 ≤ 256 ∧ 8 ≤ 17179869184 ∧ 17179869184 ≤ 17179869184) := by omega

/-- With no limit, and with a limit met exactly (R204): V-IDX-5 takes 7 probes. -/
theorem witness_OkGenerationIsKDistinctIndices :
    (1 ≤ 11 ∧ hashes 0xCFA0F7DDD84C76BC#64 0x589623161CF526F1#64 5 11 0#64 = .ok [8, 6, 4, 10, 1] 7#64) ∧
      hashes 0xCFA0F7DDD84C76BC#64 0x589623161CF526F1#64 5 11 7#64 = .ok [8, 6, 4, 10, 1] 7#64 := by decide

/-- V-IDX-5 again, one probe short. -/
theorem test_one_probe_short :
    hashes 0xCFA0F7DDD84C76BC#64 0x589623161CF526F1#64 5 11 6#64 = .exhausted 6#64 := by decide

theorem witness_DegenerateGenerationsNeverEnd :
    (8 ≤ 8 ∧ 8 ≤ 17179869184 ∧ 8 < 9) ∧ (0#64 = 0#64 ∧ 2 ≤ 2) ∧
      ((∃ e, 8 = 2 ^ e) ∧ (6#64).toNat % 8 % 2 = 0 ∧ 8 / Nat.gcd ((6#64).toNat % 8) 8 < 5) :=
  ⟨by decide, by decide, ⟨3, rfl⟩, by decide, by decide⟩

theorem witness_GenerationEndsForOddStepOrOneIndex :
    8 ≤ 8 ∧ 8 ≤ 17179869184 ∧ (0xFFFFFFFFFFFFFFFF#64).toNat % 2 = 1 ∧ 8 ≤ 8 := by decide

/-- The hypotheses the three statements about a successful generation share: one index of the smallest filter, and a filter of
the whole storage. -/
theorem successful_generation (i : Instr) (k m : Word) (hk : 1 ≤ k.toNat ∧ k.toNat ≤ 16) (hm : 8 ≤ m.toNat ∧ m.toNat ≤ 1024) :
    ParamsOK .u32 (busy i k m) ∧ KeyIs .u32 (busy i k m) [0#8, 0#8, 0#8, 0#8] :=
  ⟨⟨hk, hm, fun h => by cases h⟩, keyIs_zero_u32 rfl rfl⟩

theorem zero_key_generations :
    let d := establish false [0#8, 0#8, 0#8, 0#8] 0#64
    hashes d.1 d.2 1 8 0#64 = .ok [4] 1#64 ∧ hashes d.1 d.2 8 8 0#64 = .ok [4, 5, 6, 7, 0, 1, 2, 3] 8#64 := by decide

theorem witness_IndexWritesTheIndices :
    ∀ c ∈ [(1#64, [4], 1#64), (8#64, [4, 5, 6, 7, 0, 1, 2, 3], 8#64)],
      let s := busy .indexU32 c.1 8
      (Instr.indexU32, Shape.u32) ∈ indexCommands ∧ ParamsOK .u32 s ∧ KeyIs .u32 s [0#8, 0#8, 0#8, 0#8] ∧
        hashes (establish s.cfg.tailSignExtend [0#8, 0#8, 0#8, 0#8] s.seed).1
            (establish s.cfg.tailSignExtend [0#8, 0#8, 0#8, 0#8] s.seed).2 s.k.toNat s.m.toNat s.plim =
          .ok c.2.1 c.2.2 := by
  intro c hc
  simp only [List.mem_cons, List.not_mem_nil, or_false] at hc
  obtain rfl | rfl := hc
  · exact ⟨by decide, (successful_generation _ _ _ (by decide) (by decide)).1,
      (successful_generation _ _ _ (by decide) (by decide)).2, zero_key_generations.1⟩
  · exact ⟨by decide, (successful_generation _ _ _ (by decide) (by decide)).1,
      (successful_generation _ _ _ (by decide) (by decide)).2, zero_key_generations.2⟩

/-- `PLIM = 1` and `K = 2`: one probe cannot give two indices. -/
theorem witness_ExhaustedGenerationEndsWithHashExhausted :
    let s := { busy .testU32 2 8 with plim := 1 }
    (Instr.testU32, Shape.u32) ∈ filterCommands ∧ ParamsOK .u32 s ∧ KeyIs .u32 s [0#8, 0#8, 0#8, 0#8] ∧
      s.plim ≠ 0#64 ∧
        (acceptedAfter (establish s.cfg.tailSignExtend [0#8, 0#8, 0#8, 0#8] s.seed).1
            (establish s.cfg.tailSignExtend [0#8, 0#8, 0#8, 0#8] s.seed).2 s.m.toNat s.plim.toNat).length < s.k.toNat :=
  ⟨by decide, ⟨by decide, by decide, fun h => by cases h⟩, keyIs_zero_u32 rfl rfl, by decide, by decide⟩

theorem generation_hangs :
    let d := establish false [0#8, 0#8, 0#8, 0#8] 0#64
    hashes d.1 d.2 9 8 0#64 = .never := by decide

/-- V-IDX-10, with either engine move. -/
theorem witness_EndlessGenerationStaysBusy :
    ∀ b, let s := willDo (busy .indexU32 9 8) [.engine b]
      s.agenda = .engine b :: [] ∧ s.status.busy = true ∧ s.abortReq = false ∧ decode s.lastcmd = .ok .indexU32 ∧
        (Instr.indexU32, Shape.u32) ∈ filterCommands ∧ ParamsOK .u32 s ∧ KeyIs .u32 s [0#8, 0#8, 0#8, 0#8] ∧
          hashes (establish s.cfg.tailSignExtend [0#8, 0#8, 0#8, 0#8] s.seed).1
            (establish s.cfg.tailSignExtend [0#8, 0#8, 0#8, 0#8] s.seed).2 s.k.toNat s.m.toNat s.plim = .never :=
  fun _ => ⟨rfl, rfl, rfl, (by decide : decode (encode .indexU32) = .ok .indexU32), by decide,
    paramsOK_u32 9#64 8#64 rfl rfl rfl (by decide), keyIs_zero_u32 rfl rfl, generation_hangs⟩

/-- Each shape, at the smallest and the largest `M`. -/
theorem witness_OneIndexCommandsComplete :
    ((Instr.indexU32, Shape.u32) ∈ filterCommands ∧ ParamsOK .u32 (busy .indexU32 1 8) ∧
        KeyIs .u32 (busy .indexU32 1 8) [0#8, 0#8, 0#8, 0#8] ∧ (busy .indexU32 1 8).k = 1#64) ∧
      ((Instr.addBytes, Shape.bytes) ∈ filterCommands ∧ ParamsOK .bytes (busy .addBytes 1 1024) ∧
        KeyIs .bytes (busy .addBytes 1 1024) [] ∧ (busy .addBytes 1 1024).k = 1#64) ∧
      ((Instr.testU64, Shape.u64) ∈ filterCommands ∧
        (let s := { busy .testU64 1 8 with keyval := 0x0102030405060708#64 }
         ParamsOK .u64 s ∧ KeyIs .u64 s [1#8, 2#8, 3#8, 4#8, 5#8, 6#8, 7#8, 8#8] ∧ s.k = 1#64)) :=
  ⟨⟨by decide, ⟨by decide, by decide, fun h => by cases h⟩, keyIs_zero_u32 rfl rfl, rfl⟩,
    ⟨by decide, ⟨by decide, by decide, fun _ => by decide⟩, keyIs_empty rfl, rfl⟩, by decide,
    ⟨by decide, by decide, fun h => by cases h⟩, keyIs_counting_u64 rfl rfl, rfl⟩

/-- An `INDEX` of the integer and a `TEST` of the same bytes. -/
theorem witness_SuccessfulGenerationsAgree :
    let s := busy .indexU32 2 8
    let u := fourZeroBytes .testBytes 2 8
    (Instr.indexU32, Shape.u32) ∈ filterCommands ∧ (Instr.testBytes, Shape.bytes) ∈ filterCommands ∧ s.Running ∧
      u.Running ∧ SameKey .u32 s .bytes u ∧ s.k = u.k ∧ s.m = u.m ∧ exec .indexU32 s = .next (ran .indexU32 s) ∧
        exec .testBytes u = .next (ran .testBytes u) ∧ (ran .indexU32 s).EndedOK ∧ (ran .testBytes u).EndedOK :=
  ⟨by decide, by decide, ⟨rfl, rfl, rfl, rfl⟩, ⟨rfl, rfl, rfl, rfl⟩, sameKey_zero _ _ _ _, rfl, rfl, rfl, rfl,
    ⟨by decide, by decide, by decide⟩, ⟨by decide, by decide, by decide⟩⟩

theorem witness_AddSetsExactlyItsBits :
    let s := busy .addU32 8 8
    (Instr.addU32, Shape.u32) ∈ addCommands ∧ ParamsOK .u32 s ∧ KeyIs .u32 s [0#8, 0#8, 0#8, 0#8] ∧
      hashes (establish s.cfg.tailSignExtend [0#8, 0#8, 0#8, 0#8] s.seed).1
          (establish s.cfg.tailSignExtend [0#8, 0#8, 0#8, 0#8] s.seed).2 s.k.toNat s.m.toNat s.plim =
        .ok [4, 5, 6, 7, 0, 1, 2, 3] 8#64 :=
  ⟨by decide, (successful_generation _ _ _ (by decide) (by decide)).1,
    (successful_generation _ _ _ (by decide) (by decide)).2, zero_key_generations.2⟩

/-- The same insertion without a limit and with one. -/
theorem witness_AddedBitsDoNotDependOnTheProbeLimit :
    let s := busy .addU32 2 8
    let u := { fourZeroBytes .addBytes 2 8 with plim := 2 }
    (Instr.addU32, Shape.u32) ∈ addCommands ∧ (Instr.addBytes, Shape.bytes) ∈ addCommands ∧ s.Running ∧ u.Running ∧
      SameKey .u32 s .bytes u ∧ s.k = u.k ∧ s.m = u.m ∧ exec .addU32 s = .next (ran .addU32 s) ∧
        exec .addBytes u = .next (ran .addBytes u) ∧ (ran .addU32 s).EndedOK ∧ (ran .addBytes u).EndedOK :=
  ⟨by decide, by decide, ⟨rfl, rfl, rfl, rfl⟩, ⟨rfl, rfl, rfl, rfl⟩, sameKey_zero .addU32 .addBytes 2 8, rfl, rfl, rfl,
    rfl, ⟨by decide, by decide, by decide⟩, ⟨by decide, by decide, by decide⟩⟩

/-- A `TEST` of index 4 with its bit set, and with it clear. -/
theorem witness_TestReportsWhetherAllBitsAreSet :
    (∀ b ∈ [Memory.zeroed, { fill := .zero, cells := [(0, 0x10#8)] }],
      let s := { busy .testU32 1 8 with bits := b }
      (Instr.testU32, Shape.u32) ∈ testCommands ∧ ParamsOK .u32 s ∧ KeyIs .u32 s [0#8, 0#8, 0#8, 0#8] ∧
        hashes (establish s.cfg.tailSignExtend [0#8, 0#8, 0#8, 0#8] s.seed).1
            (establish s.cfg.tailSignExtend [0#8, 0#8, 0#8, 0#8] s.seed).2 s.k.toNat s.m.toNat s.plim = .ok [4] 1#64) ∧
      (∃ c ∈ [4], Memory.zeroed.bit c = false) ∧
        ∀ c ∈ [4], (Memory.bit { fill := .zero, cells := [(0, 0x10#8)] } c) = true := by
  refine ⟨fun b hb => ?_, by decide, by decide⟩
  exact ⟨by decide, paramsOK_u32 1#64 8#64 rfl rfl rfl (by decide), keyIs_zero_u32 rfl rfl, zero_key_generations.1⟩

/-- A quiet step that turns a bit: the end of an `ADD`. -/
theorem witness_OnlyAddChangesBitsAndOnlyUpward :
    let s := willDo (busy .addU32 1 8) [.engine false]
    s.quiet = true ∧ step s = .next (stepped s) ∧ (stepped s).bits ≠ s.bits ∧ blank.bits.bit 0 ≠ true := by
  refine ⟨by decide, rfl, by decide, by decide⟩

theorem witness_NoFalseNegatives :
    let s := willDo (busy .addU32 2 8) [cmdTurn .testU32]
    let t := ran .addU32 s
    let u := stepped t
    (Instr.addU32, Shape.u32) ∈ addCommands ∧ (Instr.testU32, Shape.u32) ∈ testCommands ∧ s.Running ∧
      exec .addU32 s = .next t ∧ t.EndedOK ∧ QuietRun t u ∧ u.Running ∧ SameKey .u32 s .u32 u ∧ s.k = u.k ∧ s.m = u.m ∧
        exec .testU32 u = .next (ran .testU32 u) ∧ (ran .testU32 u).EndedOK :=
  ⟨by decide, by decide, ⟨rfl, rfl, rfl, rfl⟩, rfl, ⟨by decide, by decide, by decide⟩,
    .step (by decide) rfl (.refl _), ⟨by decide, by decide, by decide, by decide⟩,
    ⟨by decide, by decide, _, keyIs_zero_u32 rfl rfl, keyIs_zero_u32 (by decide) (by decide)⟩, by decide, by decide, rfl,
    ⟨by decide, by decide, by decide⟩⟩

theorem witness_TestAfterClearGivesZero :
    let t := ran .clear (busy .clear 0 0)
    let u := { busy .testU32 1 8 with bits := t.bits }
    (Instr.testU32, Shape.u32) ∈ testCommands ∧ exec .clear (busy .clear 0 0) = .next t ∧ u.bits = t.bits ∧ u.Running ∧
      exec .testU32 u = .next (ran .testU32 u) ∧ (ran .testU32 u).EndedOK :=
  ⟨by decide, rfl, rfl, ⟨rfl, rfl, rfl, rfl⟩, rfl, ⟨by decide, by decide, by decide⟩⟩

theorem witness_PopcntCountsTheFilterBits :
    (8 ≤ (busy .popcnt 0 8).m.toNat ∧ (busy .popcnt 0 8).m.toNat ≤ tiny.bitcap) ∧
      (8 ≤ (busy .popcnt 0 1024).m.toNat ∧ (busy .popcnt 0 1024).m.toNat ≤ tiny.bitcap) := by decide

/-- A filter of 12 bits in one window word, and a block whose bits are whatever reset left. -/
theorem witness_ExportedWordsRestoreTheFilter :
    let s := { blank with m := 12, bits := { fill := .zero, cells := [(0, 0x10#8), (1, 0xFF#8)] } }
    let d := { blank with m := 12, bits := { fill := .free 2, cells := [] } }
    s.cfg.legal = true ∧ d.cfg = s.cfg ∧ d.m = s.m ∧ 8 ≤ s.m.toNat ∧ s.m.toNat ≤ s.cfg.bitcap ∧ s.status.busy = false ∧
      d.status.busy = false ∧ [0x0F10#64].length = (s.m.toNat + 63) / 64 ∧
        ∀ w, w < [0x0F10#64].length →
          ∃ r, step { s with agenda := [rdBits w] } = .next r ∧ r.rdata = [0x0F10#64].getD w 0#64 := by
  refine ⟨by decide, rfl, rfl, by decide, by decide, rfl, rfl, by decide, fun w hw => ?_⟩
  obtain rfl : w = 0 := Nat.lt_one_iff.1 hw
  exact ⟨_, rfl, by decide⟩

/-- The inner hypotheses of the same statement: the `TEST` of a key on both bit arrays. -/
theorem witness_ExportedWordsRestoreTheFilter_tests :
    let x := { busy .testU32 1 12 with bits := { fill := .zero, cells := [(0, 0x10#8), (1, 0xFF#8)] } }
    let y := { fourZeroBytes .testU32 1 12 with bits := { fill := .free 2, cells := [(0, 0x10#8), (1, 0x0F#8)] } }
    (Instr.testU32, Shape.u32) ∈ testCommands ∧ x.Running ∧ y.Running ∧ x.m = y.m ∧ x.k = y.k ∧ SameKey .u32 x .u32 y ∧
      exec .testU32 x = .next (ran .testU32 x) ∧ exec .testU32 y = .next (ran .testU32 y) ∧ (ran .testU32 x).EndedOK ∧
        (ran .testU32 y).EndedOK :=
  ⟨by decide, ⟨rfl, rfl, rfl, rfl⟩, ⟨rfl, rfl, rfl, rfl⟩, rfl, rfl,
    ⟨rfl, rfl, _, keyIs_zero_u32 rfl rfl, keyIs_zero_u32 rfl rfl⟩, rfl, rfl, ⟨by decide, by decide, by decide⟩,
    ⟨by decide, by decide, by decide⟩⟩

theorem witness_MisalignedAccessSetsAerrOnly :
    ((0x01#32).toNat % 8 ≠ 0 ∧ (0x07#32).toNat % 8 ≠ 0 ∧ (0xFFFFFFFF#32).toNat % 8 ≠ 0) ∧ (willDo blank [.read 0x01#32]).agenda = .read 0x01#32 :: [] ∧
      (willDo blank [.write 0x07#32 5#64]).agenda = .write 0x07#32 5#64 :: [] := by decide

/-- The ends of each unmapped range, in a machine whose parameters leave one in every window. -/
theorem witness_UnmappedOffsetsReadZeroIgnoreWrites :
    blank.cfg.legal = true ∧
      ∀ a ∈ [0x88#32, 0x7F8#32, 0x880#32, 0xFFF8#32, 0x10010#32, 0x7FFFFFF8#32, 0x80000080#32, 0xFFFFFFF8#32],
        a.toNat % 8 = 0 ∧
          ((0x88 ≤ a.toNat ∧ a.toNat < 0x800) ∨ (0x800 + 8 * blank.cfg.kmax ≤ a.toNat ∧ a.toNat < 0x10000) ∨
            (0x10000 + blank.cfg.keycap ≤ a.toNat ∧ a.toNat < 0x80000000) ∨
              0x80000000 + blank.cfg.bitcap / 8 ≤ a.toNat) := by
  refine ⟨by decide, fun a ha => ?_⟩
  simp only [List.mem_cons, List.not_mem_nil, or_false] at ha
  obtain rfl | rfl | rfl | rfl | rfl | rfl | rfl | rfl := ha <;> decide

/-- The first and the last read-only register and index entry. -/
theorem witness_ReadOnlyWritesAreIgnored :
    ((0x00#32).toNat ∈ [0x00, 0x50, 0x58, 0x60, 0x68, 0x70, 0x78, 0x80]) ∧
      ((0x80#32).toNat ∈ [0x00, 0x50, 0x58, 0x60, 0x68, 0x70, 0x78, 0x80]) ∧
        (0 < blank.cfg.kmax ∧ 0 < 256 ∧ (0x800#32).toNat = 0x800 + 8 * 0) ∧
          (15 < blank.cfg.kmax ∧ 15 < 256 ∧ (0x878#32).toNat = 0x800 + 8 * 15) := by decide

theorem witness_ReadsHaveNoSideEffect :
    (0x80000000#32).toNat % 8 = 0 ∧ (willDo (busy .nop 0 0) [.read 0x50#32]).agenda = .read 0x50#32 :: [] ∧
      (willDo blank [.read 0x08#32, .read 0x08#32]).agenda = .read 0x08#32 :: .read 0x08#32 :: [] ∧
        blank.status.busy = false := by decide

theorem witness_InputRegistersStoreAsWritten :
    (willDo blank [.write 0x48#32 5#64, .read 0x48#32]).agenda = .write 0x48#32 5#64 :: .read 0x48#32 :: [] ∧
      blank.status.busy = false ∧ ∃ r, (0x48#32, r) ∈ [(0x48#32, { blank with keyval := 5#64 })] :=
  ⟨rfl, rfl, _, List.mem_singleton.2 rfl⟩

theorem witness_ConstantRegistersRead :
    (willDo blank [.read 0x80#32]).agenda = .read 0x80#32 :: [] ∧
      (0x80#32, 1024#64) ∈ [(0x00#32, 0x4D33424600010007#64), (0x70#32, BitVec.ofNat 64 blank.cfg.keycap),
        (0x78#32, BitVec.ofNat 64 blank.cfg.kmax), (0x80#32, BitVec.ofNat 64 blank.cfg.bitcap)] := by decide

theorem witness_StatusReadsItsFieldsAndClearsByOnes :
    (willDo blank [.read 0x08#32]).agenda = .read 0x08#32 :: [] ∧
      (willDo blank [.write 0x08#32 0x1E#64]).agenda = .write 0x08#32 0x1E#64 :: [] ∧
        ((5 ≤ 5 ∧ 5 < 8) ∧ (5 ≤ 7 ∧ 7 < 8) ∧ 16 ≤ 16) := by decide

theorem witness_IntenStoresThreeBits :
    (willDo (busy .nop 0 0) [.write 0x18#32 7#64, .read 0x18#32]).agenda = .write 0x18#32 7#64 :: .read 0x18#32 :: [] := by
  decide

/-- The last word of the key window, idle and busy. -/
theorem witness_KeyBufferWindowIsLittleEndian :
    blank.cfg.legal = true ∧ 1 < blank.cfg.keycap / 8 ∧ (0x10008#32).toNat = 0x10000 + 8 * 1 ∧
      (willDo blank [.write 0x10008#32 5#64]).agenda = .write 0x10008#32 5#64 :: [] ∧ blank.status.busy = false ∧
        (busy .nop 0 0).cfg.legal = true ∧ (busy .nop 0 0).status.busy = true := by decide

/-- The last word of the bit window, idle and busy. -/
theorem witness_BitWindowIsMaskedByM :
    15 < blank.cfg.bitcap / 64 ∧ (0x80000078#32).toNat = 0x80000000 + 8 * 15 ∧
      (willDo blank [.write 0x80000078#32 5#64]).agenda = .write 0x80000078#32 5#64 :: [] ∧ blank.status.busy = false ∧
        (busy .nop 0 0).cfg = blank.cfg ∧ (busy .nop 0 0).status.busy = true := by decide

/-- The last entry of the index window. -/
theorem witness_IndexWindowIsReadOnly :
    blank.cfg.legal = true ∧ 15 < blank.cfg.kmax ∧ (0x878#32).toNat = 0x800 + 8 * 15 ∧
      (willDo blank [.read 0x878#32]).agenda = .read 0x878#32 :: [] ∧ blank.status.busy = false ∧
        (busy .nop 0 0).cfg = blank.cfg ∧ (busy .nop 0 0).status.busy = true := by decide

/-- The first and last of each range. -/
theorem witness_BusyInputWritesAreDropped :
    (busy .nop 0 0).cfg.legal = true ∧ (busy .nop 0 0).status.busy = true ∧
      (willDo (busy .nop 0 0) [.write 0x20#32 5#64]).agenda = .write 0x20#32 5#64 :: [] ∧
        ((0x20#32).toNat ∈ [0x20, 0x28, 0x30, 0x38, 0x40, 0x48]) ∧ ((0x48#32).toNat ∈ [0x20, 0x28, 0x30, 0x38, 0x40, 0x48]) ∧
          (1 < blank.cfg.keycap / 8 ∧ (0x10008#32).toNat = 0x10000 + 8 * 1) ∧
            (15 < blank.cfg.bitcap / 64 ∧ (0x80000078#32).toNat = 0x80000000 + 8 * 15) := by decide

/-- The first and last output register idle, the last one busy, and the first and last of the others. -/
theorem witness_RegisterReadsIdleAndBusy :
    (let s := willDo blank [.read 0x50#32]
     s.agenda = .read 0x50#32 :: [] ∧ s.status.busy = false) ∧
      (∀ e ∈ [(0x50#32, blank.h1), (0x68#32, blank.probes)],
        e ∈ [(0x50#32, blank.h1), (0x58#32, blank.h2), (0x60#32, blank.result), (0x68#32, blank.probes)]) ∧
        (let s := willDo (busy .nop 0 0) [.read 0x68#32]
         s.agenda = .read 0x68#32 :: [] ∧ s.status.busy = true ∧ (0x68#32).toNat ∈ [0x50, 0x58, 0x60, 0x68]) ∧
          (let s := willDo (busy .nop 0 0) [.read 0x48#32]
           s.agenda = .read 0x48#32 :: [] ∧ (0x48#32, s.keyval) ∈ [(0x10#32, s.lastcmd), (0x48#32, s.keyval)]) :=
  ⟨⟨rfl, rfl⟩, by simp, ⟨rfl, rfl, by decide⟩, rfl, by simp⟩

/-- A host read under a running command. -/
theorem witness_NothingMovesUnderARunningCommand :
    let s := willDo (busy .addU32 1 8) [.read 0x50#32]
    s.status.busy = true ∧ (stepped s).status.busy = true ∧ step s = .next (stepped s) :=
  ⟨rfl, rfl, rfl⟩

/-- By a start, and by reset. -/
theorem witness_LastCommandChangesOnlyAtAStart :
    (let s := willDo blank [cmdTurn .clear]
     step s = .next (stepped s) ∧ (stepped s).lastcmd ≠ s.lastcmd) ∧
      (let s := willDo (busy .clear 0 0) [.reset]
       step s = .next (stepped s) ∧ (stepped s).lastcmd ≠ s.lastcmd) :=
  ⟨⟨rfl, by decide⟩, rfl, by decide⟩

/-- Each of the six reasons. -/
theorem witness_StatusChangesOnlyForItsReasons :
    ∀ s ∈ [willDo blank [cmdTurn .clear], willDo (busy .clear 0 0) [.engine false],
        willDo { blank with status := { Status.reset with done := true } } [wrReg .status 2#64],
        willDo (busy .clear 0 0) [wrReg .k 1#64], willDo blank [.read 0x0C#32], willDo (busy .clear 0 0) [.reset]],
      step s = .next (stepped s) ∧ (stepped s).status ≠ s.status := by
  intro s hs
  simp only [List.mem_cons, List.not_mem_nil, or_false] at hs
  obtain rfl | rfl | rfl | rfl | rfl | rfl := hs <;> exact ⟨rfl, by decide⟩

theorem witness_ParametersAreConstant :
    let s := willDo (busy .indexU32 9 8) [.reset]
    step s = .next (stepped s) := rfl

theorem witness_ResetPutsRegistersAtTheirResetValues :
    (willDo (busy .indexU32 9 8) [.reset]).agenda = .reset :: [] := rfl

theorem witness_ResetLeavesTheArraysFree : (willDo (busy .addU32 1 8) [.reset]).agenda = .reset :: [] := rfl

/-- A state other than reset's that meets the invariant: an `ADD` has run, and an abort of the next is requested. -/
theorem witness_StepKeepsTheInvariant :
    let s := { startCommand (encode .testU32) (ran .addU32 (busy .addU32 2 8)) with abortReq := true, agenda := [.engine true] }
    s.Inv ∧ step s = .next (stepped s) := by
  refine ⟨?_, rfl⟩
  constructor <;> decide

end Sys2Proof.Tests
end

section
/-! PROOFS of the statements about the machine's state (10_state.md): the invariant, the reasons for a change of `STATUS`,
`LASTCMD` and the parameters, and the registers with rules of their own.

One inversion lemma, `stepEffect_of_step`, says what a step can do; the whole-machine statements are case analyses of it. -/

namespace Sys2Proof.Machine

open Sys2Proof.Claims

/-! ### What a command does before and at its end -/

/-- `u` is `s` with outputs of a running command written: the parameters, `STATUS` and `cur` stand, and so does the invariant. -/
structure CommandWrites (s u : State) : Prop where
  cfg : u.cfg = s.cfg
  status : u.status = s.status
  lastcmd : u.lastcmd = s.lastcmd
  inv : s.Inv → u.Inv

theorem CommandWrites.refl (s : State) : CommandWrites s s := ⟨rfl, rfl, rfl, id⟩

theorem CommandWrites.trans {s u t : State} (h : CommandWrites s u) (h' : CommandWrites u t) : CommandWrites s t :=
  ⟨h'.cfg.trans h.cfg, h'.status.trans h.status, h'.lastcmd.trans h.lastcmd, fun i => h'.inv (h.inv i)⟩

theorem commandWrites_writeDigest (d : Word × Word) (s : State) : CommandWrites s (writeDigest d s) :=
  ⟨rfl, rfl, rfl, fun h => h.writeDigest d⟩

theorem commandWrites_writeIndices {L : List Nat} (p : Word) {s : State} (hL : L.length ≤ s.cfg.kmax) :
    CommandWrites s (writeIndices L p s) :=
  ⟨rfl, rfl, rfl, fun h => h.writeIndices p hL⟩

theorem commandWrites_writeExhausted (p : Word) {s : State} (hk : s.k.toNat ≤ s.cfg.kmax) :
    CommandWrites s (writeExhausted p s) :=
  ⟨rfl, rfl, rfl, fun h => h.writeExhausted p hk⟩

theorem commandWrites_writeAborted {s : State} (hk : s.k.toNat ≤ s.cfg.kmax) : CommandWrites s (writeAborted s) :=
  ⟨rfl, rfl, rfl, fun h => h.writeAborted hk⟩

theorem commandWrites_result {r : Word} {s : State} (hr : s.Inv → r.toNat ≤ s.cfg.bitcap) :
    CommandWrites s { s with result := r } :=
  ⟨rfl, rfl, rfl, fun h => h.withResult (hr h)⟩

theorem commandWrites_zeroedBits (s : State) : CommandWrites s { s with bits := Memory.zeroed } :=
  ⟨rfl, rfl, rfl, fun h => h.withBits (Memory.wf_zeroed _) rfl⟩

theorem commandWrites_insertIndices {L : List Nat} {s : State} (hL : ∀ c ∈ L, c < s.cfg.bitcap) :
    CommandWrites s (insertIndices L s) := by
  refine ⟨rfl, rfl, rfl, fun h => h.withBits (wf_setBits (fun c hc => ?_) h.bitsWf) ?_⟩
  · obtain ⟨-, -, hbits⟩ := (Config.legal_iff s.cfg).1 h.cfgLegal
    have := hL c hc
    omega
  · exact Memory.drawnBefore_of_fill (setBits_fill _ _) (Nat.le_refl _) h.bitsDrawn

/-- `RESULT` is 0 or 1, and `BITCAP` is at least 64. -/
theorem commandWrites_testIndices (L : List Nat) (s : State) : CommandWrites s (testIndices L s) := by
  refine commandWrites_result fun h => ?_
  obtain ⟨-, -, hbits⟩ := (Config.legal_iff s.cfg).1 h.cfgLegal
  have : (if L.all (fun i => s.bits.bit i) then 1#64 else 0#64).toNat ≤ 1 := by split <;> decide
  omega

/-- What a generating command does with indices inside the bit array. -/
theorem commandWrites_onOkOf (i : Instr) {L : List Nat} {s : State} (hL : ∀ c ∈ L, c < s.cfg.bitcap) :
    CommandWrites s (onOkOf i L s) := by
  have hf : onOkOf i = indexOnly ∨ onOkOf i = insertIndices ∨ onOkOf i = testIndices := by cases i <;> simp [onOkOf]
  rcases hf with e | e | e <;> rw [e]
  · exact CommandWrites.refl s
  · exact commandWrites_insertIndices hL
  · exact commandWrites_testIndices L s

/-- There are at most `M ≤ BITCAP` bits to count (R246). -/
theorem countBits_result_le {s : State} (h : mOK s = true) :
    (BitVec.ofNat 64 (countBits s.bits s.m.toNat)).toNat ≤ s.cfg.bitcap := by
  have hc : countBits s.bits s.m.toNat ≤ s.m.toNat := by
    simpa [countBits] using List.countP_le_length (p := fun i => s.bits.bit i) (l := List.range s.m.toNat)
  have hm := ((mOK_iff s).1 h).2
  rw [BitVec.toNat_ofNat]
  exact ((Nat.mod_le _ _).trans hc).trans hm

/-- A command's end, with or without an error, after its outputs are written (R134, R135). -/
def CommandEnds (s t : State) : Prop := ∃ u, CommandWrites s u ∧ (t = complete u ∨ ∃ e, t = raise e u)

theorem CommandWrites.complete {s u : State} (h : CommandWrites s u) : CommandEnds s (complete u) := ⟨u, h, .inl rfl⟩

theorem CommandWrites.raise {s u : State} (h : CommandWrites s u) (e : Error) : CommandEnds s (raise e u) :=
  ⟨u, h, .inr ⟨e, rfl⟩⟩

theorem CommandEnds.inv {s t : State} (h : CommandEnds s t) (hs : s.Inv) : t.Inv := by
  obtain ⟨u, hu, rfl | ⟨e, rfl⟩⟩ := h
  · exact (hu.inv hs).complete
  · exact (hu.inv hs).raise e

theorem CommandEnds.cfg {s t : State} (h : CommandEnds s t) : t.cfg = s.cfg := by
  obtain ⟨u, hu, rfl | ⟨e, rfl⟩⟩ := h <;> exact hu.cfg

theorem CommandEnds.lastcmd {s t : State} (h : CommandEnds s t) : t.lastcmd = s.lastcmd := by
  obtain ⟨u, hu, rfl | ⟨e, rfl⟩⟩ := h <;> exact hu.lastcmd

theorem CommandEnds.idle {s t : State} (h : CommandEnds s t) : t.status.busy = false := by
  obtain ⟨u, hu, rfl | ⟨e, rfl⟩⟩ := h <;> rfl

theorem CommandEnds.done {s t : State} (h : CommandEnds s t) : t.status.done = true := by
  obtain ⟨u, hu, rfl | ⟨e, rfl⟩⟩ := h <;> rfl

/-! ### Everything a command and the engine's move can do -/

theorem hashCommand_ends (shape : Shape) (s : State) : CommandEnds s (hashCommand shape s) := by
  rcases hashCommand_cases shape s with ⟨-, e⟩ | ⟨-, d, -, e⟩ <;> rw [e]
  · exact (CommandWrites.refl s).raise _
  · exact (commandWrites_writeDigest d s).complete

/-- An `INDEX`, `ADD` or `TEST` changes nothing, if its generation never ends, or ends (R205, R207). -/
theorem filterCommand_ends (i : Instr) (shape : Shape) (s : State) :
    filterCommand shape (onOkOf i) s = s ∨ CommandEnds s (filterCommand shape (onOkOf i) s) := by
  rcases filterCommand_cases shape (onOkOf i) s with ⟨-, e⟩ | ⟨ho, d, -, ⟨L, p, hg, e⟩ | ⟨p, -, e⟩ | ⟨-, e⟩⟩ <;> rw [e]
  · exact .inr ((CommandWrites.refl s).raise _)
  · obtain ⟨⟨-, hk⟩, ⟨-, hm⟩, -⟩ := (filterOK_iff shape s).1 ho
    obtain ⟨hlen, hlt⟩ := generation_ok_bounds ho hg
    have hi : CommandWrites (writeDigest d s) (writeIndices L p (writeDigest d s)) :=
      commandWrites_writeIndices p (hlen.trans_le hk)
    exact .inr (((commandWrites_writeDigest d s).trans hi).trans
      (commandWrites_onOkOf i fun c hc => (hlt c hc).trans_le hm)).complete
  · obtain ⟨⟨-, hk⟩, -⟩ := (filterOK_iff shape s).1 ho
    have hx : CommandWrites (writeDigest d s) (writeExhausted p (writeDigest d s)) := commandWrites_writeExhausted p hk
    exact .inr (((commandWrites_writeDigest d s).trans hx).raise _)
  · exact .inl rfl

/-- What a running command answers: `ABORT`, which never runs (R140), apart. -/
theorem exec_ends {i : Instr} (hi : i ≠ .abort) (s : State) :
    ∃ t, exec i s = .next t ∧ (t = s ∨ CommandEnds s t) := by
  cases hg : generatingShape i with
  | some shape => exact ⟨_, exec_of_mem_filterCommands (mem_filterCommands.2 hg) s, filterCommand_ends i shape s⟩
  | none =>
    cases i
    case nop => exact ⟨_, exec_nop s, .inr (CommandWrites.refl s).complete⟩
    case hashBytes => exact ⟨_, exec_hashBytes s, .inr (hashCommand_ends .bytes s)⟩
    case hashU32 => exact ⟨_, exec_hashU32 s, .inr (hashCommand_ends .u32 s)⟩
    case hashU64 => exact ⟨_, exec_hashU64 s, .inr (hashCommand_ends .u64 s)⟩
    case clear => exact ⟨_, exec_clear s, .inr (commandWrites_zeroedBits s).complete⟩
    case popcnt =>
      cases hm : mOK s
      · exact ⟨_, exec_popcnt_bad s hm, .inr ((CommandWrites.refl s).raise _)⟩
      · exact ⟨_, exec_popcnt_ok s hm, .inr (commandWrites_result fun _ => countBits_result_le hm).complete⟩
    case abort => exact absurd rfl hi
    all_goals cases hg

theorem completionStep_ends (s : State) : ∃ t, completionStep s = .next t ∧ (t = s ∨ CommandEnds s t) := by
  cases hd : decode s.lastcmd with
  | error e => exact ⟨_, completionStep_illegal hd, .inr ((CommandWrites.refl s).raise _)⟩
  | ok i =>
    by_cases hi : i = .abort
    · subst hi
      exact ⟨_, completionStep_abort hd, .inr (CommandWrites.refl s).complete⟩
    · rw [completionStep_exec hd hi]
      exact exec_ends hi s

/-- The engine's move changes nothing or ends the running command. -/
theorem engineStep_ends (b : Bool) (s : State) :
    ∃ t, engineStep b s = .next t ∧ (t = s ∨ s.status.busy = true ∧ CommandEnds s t) := by
  rcases engineStep_cases b s with ⟨-, e⟩ | ⟨hb, e⟩ | ⟨hb, -, i, shape, d, -, -, hf, -, e⟩
  · exact ⟨s, e, .inl rfl⟩
  · obtain ⟨t, ht, h⟩ := completionStep_ends s
    exact ⟨t, e.trans ht, h.imp_right fun h => ⟨hb, h⟩⟩
  · obtain ⟨⟨-, hk⟩, -⟩ := (filterOK_iff shape s).1 hf
    have ha : CommandWrites (writeDigest d s) (writeAborted (writeDigest d s)) := commandWrites_writeAborted hk
    exact ⟨_, e, .inr ⟨hb, ((commandWrites_writeDigest d s).trans ha).raise _⟩⟩

/-! ### Everything a step can do -/

/-- Nothing but the model's own fields differs, and draws only go up (log entry 3). -/
def HostOnly (s u : State) : Prop :=
  ∃ r n ag, u = { s with rdata := r, draws := s.draws + n, agenda := ag }

theorem HostOnly.inv {s u : State} (h : HostOnly s u) (hs : s.Inv) : u.Inv := by
  obtain ⟨r, n, ag, rfl⟩ := h
  exact hs.hostFields r n ag

theorem HostOnly.cfg {s u : State} (h : HostOnly s u) : u.cfg = s.cfg := by
  obtain ⟨r, n, ag, rfl⟩ := h
  rfl

theorem HostOnly.status {s u : State} (h : HostOnly s u) : u.status = s.status := by
  obtain ⟨r, n, ag, rfl⟩ := h
  rfl

theorem HostOnly.lastcmd {s u : State} (h : HostOnly s u) : u.lastcmd = s.lastcmd := by
  obtain ⟨r, n, ag, rfl⟩ := h
  rfl

theorem HostOnly.trans {s u t : State} (h : HostOnly s u) (h' : HostOnly u t) : HostOnly s t := by
  obtain ⟨_, n, _, rfl⟩ := h
  obtain ⟨r, n', ag, rfl⟩ := h'
  exact ⟨r, n + n', ag, by simp only [Nat.add_assoc]⟩

/-- The block while a move is taken off the agenda. -/
theorem hostOnly_agenda (s : State) (ag : List Turn) : HostOnly s { s with agenda := ag } := ⟨s.rdata, 0, ag, rfl⟩

theorem hostOnly_rdata (s : State) (r : Word) : HostOnly s { s with rdata := r } := ⟨r, 0, s.agenda, rfl⟩

/-- Everything a host read can do (R73, R74, R93). -/
theorem memRead_cases (a : Addr) (s : State) :
    HostOnly s (memRead a s) ∨ (a.toNat % 8 ≠ 0 ∧ ∃ u, HostOnly s u ∧ memRead a s = flagMisaligned u) := by
  cases ha : aligned a with
  | false => exact .inr ⟨(aligned_false_iff a).1 ha, _, hostOnly_rdata s 0#64, memRead_misaligned ha⟩
  | true =>
    cases ho : s.status.busy && isOut (locate s.cfg a) with
    | false =>
      rw [memRead_value ha ho]
      exact .inl (hostOnly_rdata s _)
    | true =>
      obtain ⟨hb, ho⟩ := Bool.and_eq_true_iff.1 ho
      rw [memRead_free ha hb ho]
      exact .inl ⟨_, 1, s.agenda, rfl⟩

theorem hostOnly_pollStatus (s : State) : HostOnly s (pollStatus s) := by
  cases hb : s.status.busy
  · rw [pollStatus_idle hb]
    exact hostOnly_rdata s _
  · rw [pollStatus_busy hb]
    exact ⟨_, 1, _, rfl⟩

/-- What a step from `s` can do (R5, R85). -/
inductive StepEffect (s : State) : State → Prop where
  /-- A read, a poll, an idle engine's move, or that of a command that cannot complete. -/
  | hostOnly {t : State} (h : HostOnly s t) : StepEffect s t
  /-- The running command ends. -/
  | ends {u t : State} (h : HostOnly s u) (busy : s.status.busy = true) (e : CommandEnds u t) : StepEffect s t
  /-- A misaligned read (R74). -/
  | misread {u : State} {a : Addr} {rest : List Turn} (h : HostOnly s u) (ha : a.toNat % 8 ≠ 0)
      (hs : s.agenda = .read a :: rest) : StepEffect s (flagMisaligned u)
  /-- A host write. -/
  | write {t : State} {a : Addr} {v : Word} {rest : List Turn} (hs : s.agenda = .write a v :: rest)
      (hw : memWrite a v { s with agenda := rest } = .next t) : StepEffect s t
  /-- Reset. -/
  | reset {rest : List Turn} (hs : s.agenda = .reset :: rest) : StepEffect s (resetStep { s with agenda := rest })

theorem stepEffect_of_engineStep {s u t : State} {b : Bool} (hu : HostOnly s u) (h : engineStep b u = .next t) :
    StepEffect s t := by
  obtain ⟨t', ht', hend⟩ := engineStep_ends b u
  cases ht'.symm.trans h
  rcases hend with rfl | ⟨hb, hend⟩
  · exact .hostOnly hu
  · exact .ends hu (hu.status ▸ hb) hend

/-- The inversion lemma of the step. -/
theorem stepEffect_of_step {s t : State} (h : step s = .next t) : StepEffect s t := by
  cases hs : s.agenda with
  | nil =>
    rw [step_nil hs] at h
    cases hb : s.status.busy with
    | false =>
      cases (runAlone_idle hb).symm.trans h
      exact .hostOnly (hostOnly_agenda s s.agenda)
    | true =>
      rw [runAlone_busy hb] at h
      exact stepEffect_of_engineStep ⟨s.rdata, 1, s.agenda, rfl⟩ h
  | cons m rest =>
    rw [step_cons hs] at h
    cases m with
    | read a =>
      cases h
      rcases memRead_cases a { s with agenda := rest } with hu | ⟨ha, u, hu, e⟩
      · exact .hostOnly ((hostOnly_agenda s rest).trans hu)
      · rw [e]
        exact .misread ((hostOnly_agenda s rest).trans hu) ha hs
    | write a v => exact .write hs h
    | wait =>
      cases h
      exact .hostOnly ((hostOnly_agenda s rest).trans (hostOnly_pollStatus _))
    | engine b => exact stepEffect_of_engineStep (hostOnly_agenda s rest) h
    | reset =>
      cases h
      exact .reset hs

/-! ### The invariant -/

theorem State.Inv.writeCmd {s t : State} (hs : s.Inv) {v : Word} (h : writeCmd v s = .next t) : t.Inv := by
  rcases writeCmd_cases v s with ⟨-, e⟩ | ⟨-, -, e⟩ | ⟨hv, -, e⟩ <;> cases e.symm.trans h
  · cases hb : s.status.busy
    · exact hs
    · exact { hs with abortBusy := fun _ => hb }
  · exact hs.statusOnly rfl id id rfl
  · exact hs.startCommand hv

theorem State.Inv.memWrite {s t : State} (hs : s.Inv) {a : Addr} {v : Word} (h : memWrite a v s = .next t) : t.Inv := by
  obtain ⟨hkeycap, -, hbitcap⟩ := (Config.legal_iff s.cfg).1 hs.cfgLegal
  rcases memWrite_cases a v s with ⟨-, e⟩ | e | ⟨-, e⟩ | ⟨-, e⟩ | ⟨-, e⟩ | ⟨-, e⟩ | ⟨-, r, -, -, e⟩ | ⟨-, j, hj, e⟩ |
    ⟨-, -, w, hw, e⟩ <;> have h := e.symm.trans h
  · cases h
    exact hs.statusOnly rfl id id rfl
  · cases h
    exact hs
  · cases h
    exact hs.statusOnly rfl id id rfl
  · exact hs.writeCmd h
  · cases h
    exact hs.statusOnly rfl (fun hd => by simp [Status.w1c, hd]) (fun he => by simp [Status.w1c, he]) rfl
  · cases h
    exact { hs with }
  · cases h
    exact hs.storeIn r v
  · cases h
    unfold Config.keywords at hj
    exact hs.withKeybuf (Memory.wf_setWord _ (by omega) hs.keybufWf)
      (Memory.drawnBefore_of_fill (Memory.setWord_fill _ _ _) (Nat.le_refl _) hs.keybufDrawn)
  · cases h
    unfold Config.bitwords at hw
    exact hs.withBits (Memory.wf_setWord _ (by omega) hs.bitsWf)
      (Memory.drawnBefore_of_fill (Memory.setWord_fill _ _ _) (Nat.le_refl _) hs.bitsDrawn)

/-- Settles O60: each effect a step can have keeps the invariant. -/
theorem stepKeepsTheInvariant : Obligations.StepKeepsTheInvariant := by
  intro s t hs h
  cases stepEffect_of_step h with
  | hostOnly hu => exact hu.inv hs
  | ends hu _ hend => exact hend.inv (hu.inv hs)
  | misread hu _ _ => exact (hu.inv hs).statusOnly rfl id id rfl
  | write _ hw => exact ((hostOnly_agenda s _).inv hs).memWrite hw
  | reset _ => exact ((hostOnly_agenda s _).inv hs).resetStep

/-! ### The parameters, `LASTCMD` and `STATUS` -/

/-- A host write leaves the parameters, `STATUS` and `LASTCMD`, or is one of the four that R56 and R39 name. -/
theorem memWrite_control {s t : State} {a : Addr} {v : Word} (h : memWrite a v s = .next t) :
    (t.cfg = s.cfg ∧ t.status = s.status ∧ t.lastcmd = s.lastcmd) ∨
      (a = 0x10#32 ∧ s.status.busy = false ∧ v ≠ abortWord ∧ t = startCommand v s) ∨
        (a = 0x08#32 ∧ t = { s with status := s.status.w1c v }) ∨ (s.status.busy = true ∧ t = dropWrite s) ∨
          (a.toNat % 8 ≠ 0 ∧ t = flagMisaligned s) := by
  rcases memWrite_cases a v s with ⟨ha, e⟩ | e | ⟨hb, e⟩ | ⟨ha, e⟩ | ⟨ha, e⟩ | ⟨-, e⟩ | ⟨-, r, -, -, e⟩ | ⟨-, j, -, e⟩ |
    ⟨-, -, w, -, e⟩ <;> have h := e.symm.trans h
  · cases h
    exact .inr (.inr (.inr (.inr ⟨ha, rfl⟩)))
  · cases h
    exact .inl ⟨rfl, rfl, rfl⟩
  · cases h
    exact .inr (.inr (.inr (.inl ⟨hb, rfl⟩)))
  · rcases writeCmd_cases v s with ⟨-, e'⟩ | ⟨-, hb, e'⟩ | ⟨hv, hb, e'⟩ <;> cases e'.symm.trans h
    · exact .inl (by split <;> exact ⟨rfl, rfl, rfl⟩)
    · exact .inr (.inr (.inr (.inl ⟨hb, rfl⟩)))
    · exact .inr (.inl ⟨ha, hb, hv, rfl⟩)
  · cases h
    exact .inr (.inr (.inl ⟨ha, rfl⟩))
  · cases h
    exact .inl ⟨rfl, rfl, rfl⟩
  · cases h
    exact .inl ⟨storeIn_cfg r v s, storeIn_status r v s, storeIn_lastcmd r v s⟩
  · cases h
    exact .inl ⟨rfl, rfl, rfl⟩
  · cases h
    exact .inl ⟨rfl, rfl, rfl⟩

/-- Settles O56: each effect a step can have leaves the parameters. -/
theorem parametersAreConstant : Obligations.ParametersAreConstant := by
  intro s t h
  cases stepEffect_of_step h with
  | hostOnly hu => exact hu.cfg
  | ends hu _ hend => exact hend.cfg.trans hu.cfg
  | misread hu _ _ => exact hu.cfg
  | write _ hw =>
    rcases memWrite_control hw with ⟨hc, -, -⟩ | ⟨-, -, -, rfl⟩ | ⟨-, rfl⟩ | ⟨-, rfl⟩ | ⟨-, rfl⟩
    · exact hc
    all_goals rfl
  | reset _ => rfl

/-- Settles O54: only the start by a `CMD` write and reset reach `LASTCMD`. -/
theorem lastCommandChangesOnlyAtAStart : Obligations.LastCommandChangesOnlyAtAStart := by
  intro s t h hne
  cases stepEffect_of_step h with
  | hostOnly hu => exact absurd hu.lastcmd hne
  | ends hu _ hend => exact absurd (hend.lastcmd.trans hu.lastcmd) hne
  | misread hu _ _ => exact absurd hu.lastcmd hne
  | write hs hw =>
    rcases memWrite_control hw with ⟨-, -, hl⟩ | ⟨rfl, hb, hv, rfl⟩ | ⟨-, rfl⟩ | ⟨-, rfl⟩ | ⟨-, rfl⟩
    · exact absurd hl hne
    · exact .inl ⟨_, _, hs, hb, hv, rfl⟩
    all_goals exact absurd rfl hne
  | reset hs => exact .inr ⟨_, hs, rfl⟩

/-- Settles O55: each effect a step can have on `STATUS` is one of R56's reasons. -/
theorem statusChangesOnlyForItsReasons : Obligations.StatusChangesOnlyForItsReasons := by
  intro s t h hne
  cases stepEffect_of_step h with
  | hostOnly hu => exact absurd hu.status hne
  | ends _ hb hend => exact .inr (.inl ⟨hb, hend.idle, hend.done⟩)
  | misread hu ha hs =>
    refine .inr (.inr (.inr (.inr (.inl ⟨?_, _, ha, _, .inl hs⟩))))
    rw [flagMisaligned_status, hu.status]
  | write hs hw =>
    rcases memWrite_control hw with ⟨-, hst, -⟩ | ⟨rfl, hb, -, rfl⟩ | ⟨rfl, rfl⟩ | ⟨hb, rfl⟩ | ⟨ha, rfl⟩
    · exact absurd hst hne
    · exact .inl ⟨hb, rfl, _, _, hs⟩
    · exact .inr (.inr (.inl ⟨_, _, hs⟩))
    · exact .inr (.inr (.inr (.inl ⟨hb, rfl, _, _, _, hs⟩)))
    · exact .inr (.inr (.inr (.inr (.inl ⟨rfl, _, ha, _, .inr ⟨_, hs⟩⟩))))
  | reset hs => exact .inr (.inr (.inr (.inr (.inr ⟨_, hs⟩))))

/-! ### Accesses to registers -/

/-- The agenda is no register. -/
theorem readReg_withAgenda (r : Reg) (s : State) (ag : List Turn) : readReg r { s with agenda := ag } = readReg r s := by
  cases r <;> rfl

theorem storeIn_withAgenda (r : Reg) (v : Word) (s : State) (ag : List Turn) :
    storeIn r v { s with agenda := ag } = { storeIn r v s with agenda := ag } := by cases r <;> rfl

/-- A host write at a register's offset. -/
theorem step_writeReg {s : State} {r : Reg} {v : Word} {rest : List Turn} (h : s.agenda = .write (regOffset r) v :: rest) :
    step s = writeReg r v { s with agenda := rest } := by
  rw [step_cons h, takeTurn_write, memWrite_aligned (aligned_regOffset r), locate_regOffset]
  rfl

/-- A host read at a register's offset, where the value is not an output's while busy (R93). -/
theorem step_readReg {s : State} {r : Reg} {rest : List Turn} (h : s.agenda = .read (regOffset r) :: rest)
    (ho : (s.status.busy && isOut (.reg r)) = false) :
    step s = .next { s with agenda := rest, rdata := readReg r s } := by
  rw [step_cons h, takeTurn_read, memRead_value (aligned_regOffset r) (by rwa [locate_regOffset]), locate_regOffset,
    readRegion, readReg_withAgenda]

theorem writeReg_isIn {r : Reg} (hr : isIn r = true) (v : Word) {s : State} (hb : s.status.busy = false) :
    writeReg r v s = .next (storeIn r v s) := by
  cases r
  case seed | k | m | plim | keylen | keyval => simp [writeReg, hb]
  all_goals cases hr

/-- An input register reads back what was stored in it. -/
theorem readReg_storeIn {r : Reg} (hr : isIn r = true) (v : Word) (s : State) : readReg r (storeIn r v s) = v := by
  cases r
  case seed | k | m | plim | keylen | keyval => rfl
  all_goals cases hr

/-- The write of an input register while idle, and the read that follows. -/
theorem step_storeIn_step_read {s : State} {r : Reg} (hr : isIn r = true) {v : Word} {rest : List Turn}
    (h : s.agenda = .write (regOffset r) v :: .read (regOffset r) :: rest) (hb : s.status.busy = false) :
    ∃ t, step s = .next t ∧ t = { storeIn r v s with agenda := .read (regOffset r) :: rest } ∧
      step t = .next { storeIn r v s with agenda := rest, rdata := v } := by
  refine ⟨_, ?_, rfl, ?_⟩
  · rw [step_writeReg h, writeReg_isIn hr v (by exact hb), storeIn_withAgenda]
  · rw [step_readReg rfl (by simp [hb]), readReg_withAgenda, readReg_storeIn hr]

/-- Settles O43: the six offsets are those of the input registers. -/
theorem inputRegistersStoreAsWritten : Obligations.InputRegistersStoreAsWritten := by
  intro s addr v rest h hb u hu
  obtain ⟨r, hr, rfl, rfl⟩ : ∃ r, isIn r = true ∧ addr = regOffset r ∧ u = storeIn r v s := by
    simp only [List.mem_cons, Prod.mk.injEq, List.not_mem_nil, or_false] at hu
    rcases hu with hu | hu | hu | hu | hu | hu
    · exact ⟨.seed, rfl, hu⟩
    · exact ⟨.k, rfl, hu⟩
    · exact ⟨.m, rfl, hu⟩
    · exact ⟨.plim, rfl, hu⟩
    · exact ⟨.keylen, rfl, hu⟩
    · exact ⟨.keyval, rfl, hu⟩
  exact step_storeIn_step_read hr h hb

/-- Settles O44: the four offsets are those of the hard-wired registers, which are no outputs. -/
theorem constantRegistersRead : Obligations.ConstantRegistersRead := by
  intro s addr rest v h hv
  obtain ⟨r, ho, rfl, rfl⟩ : ∃ r, isOut (.reg r) = false ∧ addr = regOffset r ∧ v = readReg r s := by
    simp only [List.mem_cons, Prod.mk.injEq, List.not_mem_nil, or_false] at hv
    rcases hv with hv | hv | hv | hv
    · exact ⟨.id, rfl, hv⟩
    · exact ⟨.capKey, rfl, hv⟩
    · exact ⟨.capK, rfl, hv⟩
    · exact ⟨.capBits, rfl, hv⟩
  exact step_readReg h (by simp [ho])

/-! ### `STATUS` and `INTEN` as words -/

/-- The flags of `STATUS` as the host reads them (R32). -/
theorem Status.getLsbD_toWord_flags (x : Status) :
    x.toWord.getLsbD 0 = x.busy ∧ x.toWord.getLsbD 1 = x.done ∧ x.toWord.getLsbD 2 = x.err ∧ x.toWord.getLsbD 3 = x.werr ∧
      x.toWord.getLsbD 4 = x.aerr := by
  simp only [toWord, BitVec.getLsbD_append]
  simp

/-- `STATUS` above its flags: three zero bits, `ERRCODE`, zeros (R32). -/
theorem Status.getLsbD_toWord_high (x : Status) {b : Nat} (hb : 5 ≤ b) :
    x.toWord.getLsbD b = (decide (8 ≤ b) && x.errcode.getLsbD (b - 8)) := by
  obtain ⟨c, rfl⟩ := Nat.exists_eq_add_of_le' hb
  simp only [toWord, BitVec.getLsbD_append]
  rcases Nat.lt_or_ge c 3 with h | h
  · simp [h]
  · by_cases h' : c - 3 < 8
    · simp [h, h']
    · simp [h, h', BitVec.getLsbD_of_ge x.errcode (c - 3) (by omega)]

/-- `INTEN` reads back the low three bits of the word written (R40). -/
theorem toWord_intenOfWord (v : Word) : (intenOfWord v).toWord = v &&& 7#64 := by
  refine BitVec.eq_of_getLsbD_eq fun b hb => ?_
  have h7 : (7#64).getLsbD b = decide (b < 3) := by
    rw [BitVec.getLsbD_ofNat, show 7 = 2 ^ 3 - 1 by rfl, Nat.testBit_two_pow_sub_one]
    simp [hb]
  rw [BitVec.getLsbD_and, h7]
  simp only [Inten.toWord, intenOfWord, BitVec.getLsbD_append]
  rcases b with _ | _ | _ | b <;> simp

/-- Settles O45: the read shows the bits of `Status.toWord`, the write is `Status.w1c`. -/
theorem statusReadsItsFieldsAndClearsByOnes : Obligations.StatusReadsItsFieldsAndClearsByOnes := by
  intro s rest
  refine ⟨fun h => ⟨_, step_readReg (r := .status) h (by simp [isOut]), rfl, ?_⟩, fun v h => step_writeReg (r := .status) h⟩
  obtain ⟨hbusy, hdone, herr, hwerr, haerr⟩ := s.status.getLsbD_toWord_flags
  refine ⟨hbusy, hdone, herr, hwerr, haerr, fun b _ => ?_, fun b hb => ?_⟩
  · exact (s.status.getLsbD_toWord_high (by omega)).trans (by simp)
  · refine (s.status.getLsbD_toWord_high (by omega)).trans ?_
    rcases hb with ⟨-, h8⟩ | h16
    · simp [Nat.not_le.2 h8]
    · simp [BitVec.getLsbD_of_ge s.status.errcode (b - 8) (by omega)]

/-- Settles O46: what the read returns is the masked word. -/
theorem intenStoresThreeBits : Obligations.IntenStoresThreeBits := by
  intro s v rest h
  refine ⟨_, step_writeReg (r := .inten) h, rfl, ?_⟩
  rw [← toWord_intenOfWord]
  exact step_readReg (r := .inten) rfl (by simp [isOut])

end Sys2Proof.Machine
end

section
/-! PROOFS of the statements about the host bus (20_memory.md): misaligned and unmapped accesses, the read-only registers, and
the windows onto the three storage arrays, idle and busy.

A move is resolved once into a rule of its region (`step_write_region`, `step_read_region`, `step_read_free`); each statement is
then the region an offset falls in, and what the storage laws say of that region. -/

namespace Sys2Proof.Machine

/-! ### One access, by region -/

/-- A region shows nothing of the read data or of the moves to come. -/
theorem readRegion_withHost (R : Region) (s : State) (d : Word) (ag : List Turn) :
    readRegion R { s with rdata := d, agenda := ag } = readRegion R s := by
  cases R with
  | reg r => cases r <;> rfl
  | idx i => rfl
  | keybuf j => rfl
  | bits w => rfl
  | unmapped => rfl

section Access

variable {s : State} {addr : Addr} {rest : List Turn} {R : Region}

/-- An aligned host write runs the write rule of the region its offset falls in (R73). -/
theorem step_write_region {v : Word} (h : s.agenda = .write addr v :: rest) (ha : addr.toNat % 8 = 0)
    (hl : locate s.cfg addr = R) : step s = writeRegion R v { s with agenda := rest } := by
  subst hl
  rw [step_cons h, takeTurn_write, memWrite_aligned ((aligned_iff addr).2 ha)]

/-- An aligned host read returns what its region shows, unless it is a busy read of an output (R73, R93). -/
theorem step_read_region (h : s.agenda = .read addr :: rest) (ha : addr.toNat % 8 = 0) (hl : locate s.cfg addr = R)
    (ho : (s.status.busy && isOut R) = false) :
    step s = .next { s with agenda := rest, rdata := readRegion R s } := by
  subst hl
  rw [step_cons h, takeTurn_read, memRead_value ((aligned_iff addr).2 ha) (by exact ho),
    readRegion_withHost _ s s.rdata rest]

/-- A busy read of an output returns a fresh draw (R93). -/
theorem step_read_free (h : s.agenda = .read addr :: rest) (ha : addr.toNat % 8 = 0) (hl : locate s.cfg addr = R)
    (hb : s.status.busy = true) (ho : isOut R = true) :
    step s = .next { s with agenda := rest, rdata := Config.freeWord s.draws 0, draws := s.draws + 1 } := by
  subst hl
  rw [step_cons h, takeTurn_read, memRead_free ((aligned_iff addr).2 ha) (by exact hb) (by exact ho)]

end Access

/-! ### Misaligned accesses and reads in general -/

/-- Settles O39: the access stops at the alignment check. -/
theorem misalignedAccessSetsAerrOnly : Obligations.MisalignedAccessSetsAerrOnly := by
  intro s addr rest ha
  have hm := (aligned_false_iff addr).2 ha
  refine ⟨fun h => ?_, fun v h => ?_⟩
  · rw [step_cons h, takeTurn_read, memRead_misaligned hm]
    rfl
  · rw [step_cons h, takeTurn_write, memWrite_misaligned hm]
    rfl

/-- Settles O42: a read either shows its region or draws; the region shown does not depend on an earlier read. -/
theorem readsHaveNoSideEffect : Obligations.ReadsHaveNoSideEffect := by
  intro s addr rest ha
  refine ⟨fun h => ?_, fun h hb => ?_⟩
  · cases ho : s.status.busy && isOut (locate s.cfg addr) with
    | false => exact ⟨_, step_read_region h ha rfl ho, rfl⟩
    | true =>
      obtain ⟨hb, ho⟩ := Bool.and_eq_true_iff.1 ho
      exact ⟨_, step_read_free h ha rfl hb ho, rfl⟩
  · refine ⟨_, _, step_read_region h ha rfl (by simp [hb]), step_read_region rfl ha rfl (by simp [hb]), ?_⟩
    exact readRegion_withHost _ s _ _

/-! ### Offsets nothing is mapped at -/

/-- The gaps of R71's address map: above the registers, and above each window's last entry. -/
theorem locate_unmapped {c : Config} {addr : Addr}
    (h : (0x88 ≤ addr.toNat ∧ addr.toNat < 0x800) ∨ (0x800 + 8 * c.kmax ≤ addr.toNat ∧ addr.toNat < 0x10000) ∨
      (0x10000 + c.keycap ≤ addr.toNat ∧ addr.toNat < 0x80000000) ∨ 0x80000000 + c.bitcap / 8 ≤ addr.toNat) :
    locate c addr = .unmapped := by
  rcases h with ⟨hlo, hhi⟩ | ⟨hlo, hhi⟩ | ⟨hlo, hhi⟩ | hlo
  · have hr : regAt (addr.toNat / 8) = none := by
      refine List.getElem?_eq_none ?_
      simp only [List.length_cons, List.length_nil]
      omega
    simp only [locate, if_pos hhi, hr]
  · have hi : ¬ (addr.toNat - 0x800) / 8 < c.kmax := by omega
    simp only [locate, if_neg hi]
    rw [if_neg (by omega), if_pos hhi, ite_self]
  · have hj : ¬ (addr.toNat - 0x10000) / 8 < c.keywords := by
      unfold Config.keywords
      omega
    simp only [locate, if_neg hj]
    rw [if_neg (by omega), if_neg (by omega), if_neg (by omega), if_pos hhi, ite_self]
  · have hw : ¬ (addr.toNat - 0x80000000) / 8 < c.bitwords := by
      unfold Config.bitwords
      omega
    simp only [locate, if_neg hw]
    rw [if_neg (by omega), if_neg (by omega), if_neg (by omega), if_neg (by omega), if_neg (by omega)]

/-- Settles O40: the four ranges are the gaps of the address map. -/
theorem unmappedOffsetsReadZeroIgnoreWrites : Obligations.UnmappedOffsetsReadZeroIgnoreWrites := by
  intro s addr rest ha _ hrange
  have hl := locate_unmapped hrange
  exact ⟨fun h => step_read_region h ha hl (by simp [isOut]), fun v h => step_write_region h ha hl⟩

/-! ### Registers by access -/

/-- The registers of R76, whose writes are ignored. -/
def readOnlyRegs : List Reg := [.id, .h1, .h2, .result, .probes, .capKey, .capK, .capBits]

/-- The `IN` registers (R30, R92). -/
def inRegs : List Reg := [.seed, .k, .m, .plim, .keylen, .keyval]

/-- The `OUT` registers (R30, R93). -/
def outRegs : List Reg := [.h1, .h2, .result, .probes]

theorem writeReg_of_mem_readOnlyRegs {r : Reg} (hr : r ∈ readOnlyRegs) (v : Word) (s : State) :
    writeReg r v s = .next s := by
  cases r
  case id | h1 | h2 | result | probes | capKey | capK | capBits => rfl
  all_goals exact absurd hr (by decide)

theorem writeReg_isIn_busy {r : Reg} (hr : isIn r = true) (v : Word) {s : State} (hb : s.status.busy = true) :
    writeReg r v s = .next (dropWrite s) := by
  cases r
  case seed | k | m | plim | keylen | keyval => simp [writeReg, hb]
  all_goals cases hr

theorem isIn_of_mem_inRegs : ∀ r ∈ inRegs, isIn r = true := by decide

theorem isOut_of_mem_outRegs : ∀ r ∈ outRegs, isOut (.reg r) = true := by decide

theorem not_isOut_of_mem_cmd_inRegs : ∀ r ∈ .cmd :: inRegs, isOut (.reg r) = false := by decide

/-- An offset listed as a number is that register's. -/
theorem exists_regOffset_of_toNat_mem {l : List Reg} {addr : Addr} (h : addr.toNat ∈ l.map fun r => (regOffset r).toNat) :
    ∃ r ∈ l, addr = regOffset r := by
  obtain ⟨r, hr, e⟩ := List.mem_map.1 h
  exact ⟨r, hr, BitVec.eq_of_toNat_eq e.symm⟩

/-- An offset listed with what its register holds. -/
theorem exists_readReg_of_mem {l : List Reg} {s : State} {addr : Addr} {v : Word}
    (h : (addr, v) ∈ l.map fun r => (regOffset r, readReg r s)) : ∃ r ∈ l, addr = regOffset r ∧ v = readReg r s := by
  obtain ⟨r, hr, e⟩ := List.mem_map.1 h
  cases e
  exact ⟨r, hr, rfl, rfl⟩

/-- Settles O41: neither the listed registers nor the index window have a write rule. -/
theorem readOnlyWritesAreIgnored : Obligations.ReadOnlyWritesAreIgnored := by
  intro s addr v rest h ha
  rcases ha with ha | ⟨j, hj, h256, ha⟩
  · obtain ⟨r, hr, rfl⟩ := exists_regOffset_of_toNat_mem (l := readOnlyRegs) ha
    rw [step_writeReg h, writeReg_of_mem_readOnlyRegs hr]
  · exact step_write_region h (by omega) (locate_idx h256 hj ha)

/-- Settles O51: only the four `OUT` registers are unspecified while busy. -/
theorem registerReadsIdleAndBusy : Obligations.RegisterReadsIdleAndBusy := by
  intro s addr rest h
  refine ⟨fun hb v hv => ?_, fun hb ha => ?_, fun v hv => ?_⟩
  · obtain ⟨r, -, rfl, rfl⟩ := exists_readReg_of_mem (l := outRegs) hv
    exact step_readReg h (by simp [hb])
  · obtain ⟨r, hr, rfl⟩ := exists_regOffset_of_toNat_mem (l := outRegs) ha
    have h8 := (aligned_iff _).1 (aligned_regOffset r)
    exact step_read_free h h8 (locate_regOffset s.cfg r) hb (isOut_of_mem_outRegs r hr)
  · obtain ⟨r, hr, rfl, rfl⟩ := exists_readReg_of_mem (l := .cmd :: inRegs) hv
    exact step_readReg h (by simp [not_isOut_of_mem_cmd_inRegs r hr])

/-! ### The windows onto the storage arrays -/

theorem writeRegion_keybuf_busy (j : Nat) (v : Word) {s : State} (hb : s.status.busy = true) :
    writeRegion (.keybuf j) v s = .next (dropWrite s) := by simp [writeRegion, hb]

theorem writeRegion_keybuf_idle (j : Nat) (v : Word) {s : State} (hb : s.status.busy = false) :
    writeRegion (.keybuf j) v s = .next { s with keybuf := s.keybuf.setWord j v } := by simp [writeRegion, hb]

theorem writeRegion_bits_busy (w : Nat) (v : Word) {s : State} (hb : s.status.busy = true) :
    writeRegion (.bits w) v s = .next (dropWrite s) := by simp [writeRegion, hb]

theorem writeRegion_bits_idle (w : Nat) (v : Word) {s : State} (hb : s.status.busy = false) :
    writeRegion (.bits w) v s = .next { s with bits := s.bits.setWord w (v &&& validMask (visibleBits s) w) } := by
  simp [writeRegion, hb]

/-- Settles O50: each of the three kinds of input drops a write while busy. -/
theorem busyInputWritesAreDropped : Obligations.BusyInputWritesAreDropped := by
  intro s addr v rest hc hb h ha
  obtain ⟨⟨-, -, hkeycap⟩, -, -⟩ := (Config.legal_iff s.cfg).1 hc
  rcases ha with ha | ⟨j, hj, ha⟩ | ⟨w, hw, ha⟩
  · obtain ⟨r, hr, rfl⟩ := exists_regOffset_of_toNat_mem (l := inRegs) ha
    rw [step_writeReg h, writeReg_isIn_busy (isIn_of_mem_inRegs r hr) v (by exact hb)]
    rfl
  · rw [step_write_region h (by omega) (locate_keybuf hkeycap hj ha), writeRegion_keybuf_busy j v (by exact hb)]
    rfl
  · rw [step_write_region h (by omega) (locate_bits hw ha), writeRegion_bits_busy w v (by exact hb)]
    rfl

/-- Settles O49: the index window has a read rule only, and is an output. -/
theorem indexWindowIsReadOnly : Obligations.IndexWindowIsReadOnly := by
  intro s addr i rest hc hi ha
  obtain ⟨-, ⟨-, hkmax⟩, -⟩ := (Config.legal_iff s.cfg).1 hc
  have h8 : addr.toNat % 8 = 0 := by omega
  have hl : locate s.cfg addr = .idx i := locate_idx (by omega) hi ha
  exact ⟨fun h hb => step_read_region h h8 hl (by simp [hb]), fun h hb => step_read_free h h8 hl hb rfl,
    fun v h => step_write_region h h8 hl⟩

/-- Byte `b` of a word as a number (R79). -/
theorem byteOf_eq_ofNat (v : Word) (b : Nat) : byteOf v b = BitVec.ofNat 8 (v.toNat / 2 ^ (8 * b)) := by
  rw [← Nat.shiftRight_eq_div_pow]
  rfl

/-- Byte `b` of word `w` of an array is the array's byte `8w + b` (R79). -/
theorem byteOf_word (m : Memory) (w : Nat) {b : Nat} (hb : b < 8) : byteOf (m.word w) b = m.byte (8 * w + b) := by
  refine BitVec.eq_of_getLsbD_eq fun i hi => ?_
  rw [getLsbD_byteOf _ _ _ hi, Memory.getLsbD_word _ _ _ (by omega), show (8 * b + i) / 8 = b by omega,
    show (8 * b + i) % 8 = i by omega]

/-- Settles O47: the window shows and stores words of `KEYBUF`, whose bytes are those of the word. -/
theorem keyBufferWindowIsLittleEndian : Obligations.KeyBufferWindowIsLittleEndian := by
  intro s addr j rest hc hj ha
  obtain ⟨⟨-, -, hkeycap⟩, -, -⟩ := (Config.legal_iff s.cfg).1 hc
  have h8 : addr.toNat % 8 = 0 := by omega
  have hl : locate s.cfg addr = .keybuf j := locate_keybuf hkeycap hj ha
  refine ⟨fun v h hb => ⟨_, (step_write_region h h8 hl).trans (writeRegion_keybuf_idle j v hb), rfl, fun a => ?_⟩,
    fun v h hb => (step_write_region h h8 hl).trans (writeRegion_keybuf_busy j v hb),
    fun h => ⟨_, step_read_region h h8 hl (by simp [isOut]), rfl, fun b hb => ?_⟩⟩
  · exact (Memory.byte_setWord s.keybuf j v a).trans (by rw [byteOf_eq_ofNat])
  · have e := congrArg BitVec.toNat (byteOf_word s.keybuf j hb)
    rwa [byteOf_eq_ofNat, BitVec.toNat_ofNat] at e

/-- A bit of a word masked for the window: the word's bit below the limit, 0 from there on (R80). -/
theorem getLsbD_and_validMask (v : Word) (L w : Nat) {b : Nat} (hb : b < 64) :
    (v &&& validMask L w).getLsbD b = (v.getLsbD b && decide (64 * w + b < L)) := by
  rw [BitVec.getLsbD_and, getLsbD_validMask L w b hb]

/-- Settles O48: the window shows and stores words of `BIT`, each bit masked. -/
theorem bitWindowIsMaskedByM : Obligations.BitWindowIsMaskedByM := by
  intro s addr w rest hw ha
  have h8 : addr.toNat % 8 = 0 := by omega
  have hl : locate s.cfg addr = .bits w := locate_bits hw ha
  refine ⟨fun v h hb => ⟨_, (step_write_region h h8 hl).trans (writeRegion_bits_idle w v hb), rfl, fun j => ?_⟩,
    fun v h hb => (step_write_region h h8 hl).trans (writeRegion_bits_busy w v hb),
    fun h hb => ⟨_, step_read_region h h8 hl (by simp [hb]), rfl, fun b hb => ?_⟩,
    fun h hb => step_read_free h h8 hl hb rfl⟩
  · refine (Memory.bit_setWord s.bits w _ j).trans ?_
    by_cases hj : j / 64 = w
    · rw [if_pos hj, if_pos hj, getLsbD_and_validMask _ _ _ (Nat.mod_lt _ (by omega)),
        show 64 * w + j % 64 = j by omega]
      rfl
    · rw [if_neg hj, if_neg hj]
  · refine (getLsbD_and_validMask _ _ w hb).trans ?_
    rw [Memory.getLsbD_word_eq_bit _ _ _ hb]
    rfl

end Sys2Proof.Machine
end

section
/-! PROOFS of the statements about the command words (30_encoding.md): what the decoder accepts, what it rejects, and that it
undoes the encoder.

`decode_cases` says once what the decoder can answer, by the fields of the word; the statements are case analyses of it. -/

namespace Sys2Proof

open Sys2Proof.Claims

/-! ### The fields of a word -/

/-- `OP` as a number (R101). -/
theorem toNat_opField (w : Word) : (opField w).toNat = w.toNat % 256 := by
  simp [opField]

/-- `SHAPE` as a number (R102). -/
theorem toNat_shapeField (w : Word) : (shapeField w).toNat = w.toNat / 256 % 4 := by
  simp [shapeField, Nat.shiftRight_eq_div_pow]

/-- `RSV` as a number (R103). -/
theorem toNat_rsvField (w : Word) : (rsvField w).toNat = w.toNat / 1024 := by
  have h := w.isLt
  simp only [rsvField, BitVec.extractLsb'_toNat, Nat.shiftRight_eq_div_pow]
  omega

theorem rsvField_eq_zero_iff (w : Word) : rsvField w = 0#54 ↔ w.toNat / 1024 = 0 := by
  rw [← toNat_rsvField, ← BitVec.toNat_inj, BitVec.toNat_ofNat, Nat.zero_mod]

/-- A word is its three fields, side by side (R100). -/
theorem fields_append (w : Word) : rsvField w ++ shapeField w ++ opField w = w := by
  unfold rsvField shapeField opField
  rw [BitVec.extractLsb'_append_extractLsb'_eq_extractLsb' (by rfl),
    BitVec.extractLsb'_append_extractLsb'_eq_extractLsb' (by rfl)]
  exact BitVec.extractLsb'_eq_self

/-! ### What the decoder answers -/

/-- The keyed `OP` values of R101, each with the commands of its three shapes (R102, R104). -/
def keyedOps : List (BitVec 8 × Instr × Instr × Instr) :=
  [(0x01#8, .hashBytes, .hashU32, .hashU64), (0x02#8, .indexBytes, .indexU32, .indexU64),
   (0x03#8, .addBytes, .addU32, .addU64), (0x04#8, .testBytes, .testU32, .testU64)]

/-- The keyless `OP` values of R101, each with its command (R104). -/
def keylessOps : List (BitVec 8 × Instr) := [(0x00#8, .nop), (0x05#8, .clear), (0x06#8, .popcnt), (0x0F#8, .abort)]

/-- The keyed `OP` values as numbers. -/
theorem opField_mem_keyedOps_iff (w : Word) : opField w ∈ keyedOps.map Prod.fst ↔ w.toNat % 256 ∈ [1, 2, 3, 4] := by
  simp [keyedOps, ← BitVec.toNat_inj, toNat_opField]

/-- The keyless `OP` values as numbers. -/
theorem opField_mem_keylessOps_iff (w : Word) : opField w ∈ keylessOps.map Prod.fst ↔ w.toNat % 256 ∈ [0, 5, 6, 15] := by
  simp [keylessOps, ← BitVec.toNat_inj, toNat_opField]

section

variable {w : Word} {i bytes u32 u64 : Instr} {sh : BitVec 2}

theorem decode_reserved (hr : rsvField w ≠ 0#54) : decode w = .error .reservedBits := by
  rw [decode, if_pos hr]

theorem decode_keyed (hr : rsvField w = 0#54) (h : (opField w, bytes, u32, u64) ∈ keyedOps) :
    decode w = decodeKeyed bytes u32 u64 (shapeField w) := by
  simp only [keyedOps, List.mem_cons, List.not_mem_nil, or_false, Prod.mk.injEq] at h
  rcases h with ⟨ho, rfl, rfl, rfl⟩ | ⟨ho, rfl, rfl, rfl⟩ | ⟨ho, rfl, rfl, rfl⟩ | ⟨ho, rfl, rfl, rfl⟩ <;>
    simp [decode, hr, ho]

theorem decode_keyless (hr : rsvField w = 0#54) (h : (opField w, i) ∈ keylessOps) :
    decode w = decodeKeyless i (shapeField w) := by
  simp only [keylessOps, List.mem_cons, List.not_mem_nil, or_false, Prod.mk.injEq] at h
  rcases h with ⟨ho, rfl⟩ | ⟨ho, rfl⟩ | ⟨ho, rfl⟩ | ⟨ho, rfl⟩ <;> simp [decode, hr, ho]

theorem decode_unassigned (hr : rsvField w = 0#54) (hk : opField w ∉ keyedOps.map Prod.fst)
    (hl : opField w ∉ keylessOps.map Prod.fst) : decode w = .error .unassignedOp := by
  simp only [keyedOps, keylessOps, List.map_cons, List.map_nil, List.mem_cons, List.not_mem_nil, or_false, not_or] at hk hl
  simp [decode, hr, hk, hl]

/-- The four branches of R105, by `RSV` and `OP`. -/
theorem decode_cases (w : Word) :
    (rsvField w ≠ 0#54 ∧ decode w = .error .reservedBits) ∨
      rsvField w = 0#54 ∧
        ((∃ bytes u32 u64, (opField w, bytes, u32, u64) ∈ keyedOps ∧
            decode w = decodeKeyed bytes u32 u64 (shapeField w)) ∨
          (∃ i, (opField w, i) ∈ keylessOps ∧ decode w = decodeKeyless i (shapeField w)) ∨
          (opField w ∉ keyedOps.map Prod.fst ∧ opField w ∉ keylessOps.map Prod.fst ∧ decode w = .error .unassignedOp)) := by
  by_cases hr : rsvField w = 0#54
  · refine .inr ⟨hr, ?_⟩
    by_cases hk : opField w ∈ keyedOps.map Prod.fst
    · obtain ⟨⟨op, bytes, u32, u64⟩, hf, rfl⟩ := List.mem_map.1 hk
      exact .inl ⟨bytes, u32, u64, hf, decode_keyed hr hf⟩
    by_cases hl : opField w ∈ keylessOps.map Prod.fst
    · obtain ⟨⟨op, i⟩, hf, rfl⟩ := List.mem_map.1 hl
      exact .inr (.inl ⟨i, hf, decode_keyless hr hf⟩)
    · exact .inr (.inr ⟨hk, hl, decode_unassigned hr hk hl⟩)
  · exact .inl ⟨hr, decode_reserved hr⟩

/-- A keyed operation names the command of its shape (R102). -/
theorem decodeKeyed_eq_ok (h : decodeKeyed bytes u32 u64 sh = .ok i) :
    (sh = 0#2 ∧ bytes = i) ∨ (sh = 1#2 ∧ u32 = i) ∨ (sh = 2#2 ∧ u64 = i) := by
  unfold decodeKeyed at h
  split_ifs at h with h0 h1 h2 <;> cases h
  · exact .inl ⟨h0, rfl⟩
  · exact .inr (.inl ⟨h1, rfl⟩)
  · exact .inr (.inr ⟨h2, rfl⟩)

theorem decodeKeyless_eq_ok {j : Instr} (h : decodeKeyless j sh = .ok i) : sh = 0#2 ∧ j = i := by
  unfold decodeKeyless at h
  split_ifs at h with h0
  cases h
  exact ⟨h0, rfl⟩

theorem exists_decodeKeyed_eq_error_iff : (∃ e, decodeKeyed bytes u32 u64 sh = .error e) ↔ sh.toNat = 3 := by
  unfold decodeKeyed
  split_ifs with h0 h1 h2
  · simp [h0]
  · simp [h1]
  · simp [h2]
  · exact iff_of_true ⟨_, rfl⟩ (by bv_omega)

theorem exists_decodeKeyless_eq_error_iff : (∃ e, decodeKeyless i sh = .error e) ↔ sh.toNat ≠ 0 := by
  unfold decodeKeyless
  split_ifs with h0
  · simp [h0]
  · exact iff_of_true ⟨_, rfl⟩ (by bv_omega)

end

/-! ### Encoded words -/

/-- Each command has the syntax of its own row of the opcode table (R104). -/
theorem encoding_statement (i : Instr) : Laws.Encoding.Statement i := by
  cases i
  exacts [Laws.Encoding.nop, Laws.Encoding.hashBytes, Laws.Encoding.hashU32, Laws.Encoding.hashU64, Laws.Encoding.indexBytes,
    Laws.Encoding.indexU32, Laws.Encoding.indexU64, Laws.Encoding.addBytes, Laws.Encoding.addU32, Laws.Encoding.addU64,
    Laws.Encoding.testBytes, Laws.Encoding.testU32, Laws.Encoding.testU64, Laws.Encoding.clear, Laws.Encoding.popcnt,
    Laws.Encoding.abort]

theorem decode_encode (i : Instr) : decode (encode i) = .ok i := by
  obtain ⟨-, -, h⟩ := encoding_statement i
  exact h

/-- The words of a keyed `OP`, field by field. -/
theorem encode_of_mem_keyedOps :
    ∀ f ∈ keyedOps, encode f.2.1 = 0#54 ++ 0#2 ++ f.1 ∧ encode f.2.2.1 = 0#54 ++ 1#2 ++ f.1 ∧
      encode f.2.2.2 = 0#54 ++ 2#2 ++ f.1 := by decide

/-- The word of a keyless `OP`, field by field. -/
theorem encode_of_mem_keylessOps : ∀ f ∈ keylessOps, encode f.2 = 0#54 ++ 0#2 ++ f.1 := by decide

/-- A legal word is the word of its command: its `RSV` and `SHAPE` are known, and `OP` is in the tables. -/
theorem encode_eq_of_decode_eq_ok {w : Word} {i : Instr} (h : decode w = .ok i) : encode i = w := by
  rw [← fields_append w]
  rcases decode_cases w with ⟨-, e⟩ | ⟨hr, ⟨bytes, u32, u64, hf, e⟩ | ⟨j, hf, e⟩ | ⟨-, -, e⟩⟩ <;> rw [e] at h
  · cases h
  · obtain ⟨hbytes, hu32, hu64⟩ := encode_of_mem_keyedOps _ hf
    rw [hr]
    rcases decodeKeyed_eq_ok h with ⟨hs, rfl⟩ | ⟨hs, rfl⟩ | ⟨hs, rfl⟩ <;> rw [hs]
    · exact hbytes
    · exact hu32
    · exact hu64
  · obtain ⟨hs, rfl⟩ := decodeKeyless_eq_ok h
    rw [hr, hs]
    exact encode_of_mem_keylessOps _ hf
  · cases h

theorem decode_eq_ok_iff (w : Word) (i : Instr) : decode w = .ok i ↔ encode i = w :=
  ⟨encode_eq_of_decode_eq_ok, fun h => h ▸ decode_encode i⟩

/-- R104's list is the graph of the encoder. -/
theorem mem_commandWords_iff (w : Word) (i : Instr) : (w, i) ∈ commandWords ↔ encode i = w := by
  have hlist : ∀ p ∈ commandWords, encode p.2 = p.1 := by decide
  refine ⟨hlist (w, i), ?_⟩
  rintro rfl
  cases i <;> decide

/-! ### The statements -/

/-- Settles O1: both sides say that `w` is the word of `i`. -/
theorem decodeAcceptsExactlyTheListedWords : Obligations.DecodeAcceptsExactlyTheListedWords := by
  intro w i
  rw [decode_eq_ok_iff, mem_commandWords_iff]

/-- Settles O2, by the branch of the decoder: in each, `RSV` and `OP` leave only the condition on `SHAPE` open. -/
theorem decodeRejectsExactlyTheIllegalWords : Obligations.DecodeRejectsExactlyTheIllegalWords := by
  intro w
  rcases decode_cases w with ⟨hr, e⟩ | ⟨hr, ⟨bytes, u32, u64, hf, e⟩ | ⟨i, hf, e⟩ | ⟨hk, hl, e⟩⟩ <;> rw [e]
  · exact iff_of_true ⟨_, rfl⟩ (.inl (mt (rsvField_eq_zero_iff w).2 hr))
  · have h0 := (rsvField_eq_zero_iff w).1 hr
    have ho := (opField_mem_keyedOps_iff w).1 (List.mem_map_of_mem hf)
    rw [exists_decodeKeyed_eq_error_iff, toNat_shapeField]
    simp only [List.mem_cons, List.not_mem_nil, or_false] at ho ⊢
    omega
  · have h0 := (rsvField_eq_zero_iff w).1 hr
    have ho := (opField_mem_keylessOps_iff w).1 (List.mem_map_of_mem hf)
    rw [exists_decodeKeyless_eq_error_iff, toNat_shapeField]
    simp only [List.mem_cons, List.not_mem_nil, or_false] at ho ⊢
    omega
  · rw [opField_mem_keyedOps_iff] at hk
    rw [opField_mem_keylessOps_iff] at hl
    refine iff_of_true ⟨_, rfl⟩ (.inr (.inl ?_))
    simp only [List.mem_cons, List.not_mem_nil, or_false] at hk hl ⊢
    omega

/-- Settles O3: each of the eight words is the word of its command. -/
theorem encodedCommandsDecodeBack : Obligations.EncodedCommandsDecodeBack :=
  ⟨decode_encode, decode_encode .nop, decode_encode .hashU64, decode_encode .indexU32, decode_encode .addBytes,
    decode_encode .testU32, decode_encode .clear, decode_encode .popcnt, decode_encode .abort⟩

end Sys2Proof
end

section
/-! PROOFS of the statements about the command's life (40_command_lifecycle.md): the write to `CMD`, the engine's move on the word
it started, what a requested abort does not reach, and what stands still while a command runs. -/

namespace Sys2Proof.Machine

open Sys2Proof.Claims

/-! ### The write to `CMD` -/

section CommandWrite

variable {s : State} {v : Word} {rest : List Turn}

/-- Offset 0x10 is that of `CMD` (R30). -/
theorem step_writeCmd (h : s.agenda = .write 0x10#32 v :: rest) : step s = writeCmd v { s with agenda := rest } :=
  step_writeReg (r := .cmd) h

theorem writeCmd_abortWord (s : State) : writeCmd abortWord s = exec .abort s := if_pos rfl

theorem writeCmd_busy (hv : v ≠ abortWord) (hb : s.status.busy = true) : writeCmd v s = .next (dropWrite s) := by
  simp [writeCmd, hv, hb]

theorem writeCmd_idle (hv : v ≠ abortWord) (hb : s.status.busy = false) : writeCmd v s = .next (startCommand v s) := by
  simp [writeCmd, hv, hb]

theorem exec_abort_busy (hb : s.status.busy = true) : exec .abort s = .next { s with abortReq := true } := by simp [hb]

theorem exec_abort_idle (hb : s.status.busy = false) : exec .abort s = .next s := by simp [hb]

end CommandWrite

/-- A start clears `DONE` and `ERR`, so only the host's two flags can still drive the interrupt output (R131, R273). -/
theorem irq_startCommand (v : Word) (s : State) :
    irq (startCommand v s) = ((s.status.werr || s.status.aerr) && s.inten.hosterrie) := by simp [irq]

/-- Settles O6: the write is the start step. -/
theorem commandWriteStartsTheCommand : Obligations.CommandWriteStartsTheCommand := by
  intro s v rest h hb hv
  exact ⟨_, (step_writeCmd h).trans (writeCmd_idle hv hb), rfl, irq_startCommand v { s with agenda := rest }⟩

/-- Settles O9: the write is a dropped one. -/
theorem busyCommandWriteIsDropped : Obligations.BusyCommandWriteIsDropped := by
  intro s v rest h hb hv
  exact (step_writeCmd h).trans (writeCmd_busy hv hb)

/-- Settles O10: the write runs `ABORT`, which does nothing while idle. -/
theorem idleAbortIsIgnored : Obligations.IdleAbortIsIgnored := by
  intro s rest h hb
  exact ((step_writeCmd h).trans (writeCmd_abortWord _)).trans (exec_abort_idle hb)

/-! ### The commands that compute nothing -/

/-- Settles O7: `NOP` is `complete()`. -/
theorem nopOnlyCompletes : Obligations.NopOnlyCompletes := exec_nop

/-- Settles O11: the two cases of `ABORT`. -/
theorem abortOnlyRequests : Obligations.AbortOnlyRequests := fun _ => ⟨exec_abort_busy, exec_abort_idle⟩

/-! ### The engine's move -/

/-- Only an `INDEX`, `ADD` or `TEST` with legal operands can be aborted (R266, R267): any other word takes its completion step. -/
theorem engineStep_not_abortable {s : State} {b : Bool} (hb : s.status.busy = true)
    (hn : ∀ i shape, decode s.lastcmd = .ok i → (i, shape) ∈ filterCommands → ¬ ParamsOK shape s) :
    engineStep b s = completionStep s := by
  rcases engineStep_cases b s with ⟨hidle, -⟩ | ⟨-, e⟩ | ⟨-, -, i, shape, d, hd, hg, hf, -, -⟩
  · rw [hb] at hidle
    cases hidle
  · exact e
  · exact absurd ((paramsOK_iff shape s).2 hf) (hn i shape hd (mem_filterCommands.2 hg))

/-- Settles O13: neither kind of word can be aborted, so each takes its completion step. -/
theorem abortTouchesNoOtherCommand : Obligations.AbortTouchesNoOtherCommand := by
  intro s rest b h hb
  have hstep : (∀ i shape, decode s.lastcmd = .ok i → (i, shape) ∈ filterCommands → ¬ ParamsOK shape s) →
      step s = completionStep { s with agenda := rest } := fun hn =>
    (step_cons h).trans (engineStep_not_abortable (s := { s with agenda := rest }) hb hn)
  refine ⟨fun i hd hi hn => ?_, fun hd => ?_⟩
  · rw [hstep fun j shape hj => Except.ok.inj (hd.symm.trans hj) ▸ hn shape]
    exact completionStep_exec hd hi
  · rw [hstep fun i _ hi => absurd hi (hd i)]
    cases he : decode s.lastcmd with
    | ok i => exact absurd he (hd i)
    | error e => exact completionStep_illegal he

/-- An engine that moves alone takes the step that an engine move with the free pick of a fresh draw would (log entry 7). -/
theorem runAlone_eq_step {s : State} (h : s.agenda = []) (hb : s.status.busy = true) :
    runAlone s = step { s with agenda := [.engine (Config.freePick s.draws)], draws := s.draws + 1 } := by
  have e : { s with draws := s.draws + 1 } = { s with agenda := [], draws := s.draws + 1 } := by rw [← h]
  rw [runAlone_busy hb, e]
  rfl

/-- Settles O4, move by move. -/
theorem stepRunsTheDecodedCommand : Obligations.StepRunsTheDecodedCommand := by
  intro s rest
  refine ⟨fun b i h hb ha hd hi => ?_, fun h => ?_, fun b h hb => ?_, fun h hb => ?_, fun h hb => ?_, fun h hb => ?_,
    fun h hb => ?_⟩
  · exact ((step_cons h).trans (engineStep_unaborted hb ha)).trans (completionStep_exec hd hi)
  · exact (step_writeCmd h).trans (writeCmd_abortWord _)
  · exact (step_cons h).trans (engineStep_idle hb)
  · exact (step_nil h).trans (runAlone_idle hb)
  · exact (step_nil h).trans (runAlone_eq_step h hb)
  · exact (step_cons h).trans (congrArg Host.Outcome.next (pollStatus_idle hb))
  · exact (step_cons h).trans (congrArg Host.Outcome.next (pollStatus_busy hb))

/-! ### Under a running command -/

/-- Nothing but `STATUS`, `INTEN`, `abort_req` and the model's own fields differs. -/
def ControlOnly (s t : State) : Prop :=
  ∃ st int ar r n ag, t = { s with status := st, inten := int, abortReq := ar, rdata := r, draws := n, agenda := ag }

theorem ControlOnly.refl (s : State) : ControlOnly s s := ⟨_, _, _, _, _, _, rfl⟩

theorem ControlOnly.trans {s u t : State} (h : ControlOnly s u) (h' : ControlOnly u t) : ControlOnly s t := by
  obtain ⟨_, _, _, _, _, _, rfl⟩ := h
  obtain ⟨_, _, _, _, _, _, rfl⟩ := h'
  exact ⟨_, _, _, _, _, _, rfl⟩

theorem HostOnly.controlOnly {s u : State} (h : HostOnly s u) : ControlOnly s u := by
  obtain ⟨_, _, _, rfl⟩ := h
  exact ⟨_, _, _, _, _, _, rfl⟩

theorem controlOnly_flagMisaligned (s : State) : ControlOnly s (flagMisaligned s) := ⟨_, _, _, _, _, _, rfl⟩

theorem controlOnly_dropWrite (s : State) : ControlOnly s (dropWrite s) := ⟨_, _, _, _, _, _, rfl⟩

/-- A write to `CMD` under a running command requests an abort or is dropped (R136, R139). -/
theorem writeCmd_controlOnly {s t : State} {v : Word} (hb : s.status.busy = true) (h : writeCmd v s = .next t) :
    ControlOnly s t := by
  by_cases hv : v = abortWord
  · rw [hv, writeCmd_abortWord, exec_abort_busy hb] at h
    cases h
    exact ⟨_, _, _, _, _, _, rfl⟩
  · cases (writeCmd_busy hv hb).symm.trans h
    exact controlOnly_dropWrite s

/-- A host write under a running command stores nothing (R92, R94). -/
theorem memWrite_controlOnly {s t : State} {a : Addr} {v : Word} (hb : s.status.busy = true)
    (h : memWrite a v s = .next t) : ControlOnly s t := by
  have hbusy : s.status.busy ≠ false := ne_false_of_eq_true hb
  rcases memWrite_cases a v s with ⟨-, e⟩ | e | ⟨-, e⟩ | ⟨-, e⟩ | ⟨-, e⟩ | ⟨-, e⟩ | ⟨hidle, -⟩ | ⟨hidle, -⟩ | ⟨hidle, -⟩
  · cases e.symm.trans h
    exact controlOnly_flagMisaligned s
  · cases e.symm.trans h
    exact ControlOnly.refl s
  · cases e.symm.trans h
    exact controlOnly_dropWrite s
  · exact writeCmd_controlOnly hb (e.symm.trans h)
  · cases e.symm.trans h
    exact ⟨_, _, _, _, _, _, rfl⟩
  · cases e.symm.trans h
    exact ⟨_, _, _, _, _, _, rfl⟩
  all_goals exact absurd hidle hbusy

/-- A step under a command that is still running after it moves the controls only: a command's end and reset leave the block
idle. -/
theorem step_controlOnly {s t : State} (hs : s.status.busy = true) (ht : t.status.busy = true) (h : step s = .next t) :
    ControlOnly s t := by
  cases stepEffect_of_step h with
  | hostOnly hu => exact hu.controlOnly
  | ends _ _ hend =>
    rw [hend.idle] at ht
    cases ht
  | misread hu _ _ => exact hu.controlOnly.trans (controlOnly_flagMisaligned _)
  | write _ hw => exact (hostOnly_agenda s _).controlOnly.trans (memWrite_controlOnly (by exact hs) hw)
  | reset _ => cases ht

/-- Settles O53: the controls are none of the fourteen. -/
theorem nothingMovesUnderARunningCommand : Obligations.NothingMovesUnderARunningCommand := by
  intro s t hs ht h
  obtain ⟨_, _, _, _, _, _, rfl⟩ := step_controlOnly hs ht h
  exact ⟨rfl, rfl, rfl, rfl, rfl, rfl, rfl, rfl, rfl, rfl, rfl, rfl, rfl, rfl⟩

end Sys2Proof.Machine
end

section
/-! PROOFS of the statements about the hash unit (41_mixhash.md): the mixing functions, the tail, the streaming form over
numbers, and the digest that a keyed command leaves in `H1` and `H2`.

The streaming form eats the key from the front and folds the tail from its last byte; the machine indexes into the whole key.
They meet in two facts about lists: a chunk of a key is the first chunk of what remains of it (`blockStep_drop`), and the tail
words are one fold over the remaining bytes (`tailWords_eq`). -/

namespace Sys2Proof.Machine

open Sys2Proof.Claims

/-! ### The mixing functions (R160 to R162) -/

/-- R10's rotation is the library's, for the counts R10 names. -/
theorem rotl64_eq_rotateLeft (x : Word) {r : Nat} (hr : r < 64) : rotl64 x r = x.rotateLeft r := by
  rw [rotl64, BitVec.rotateLeft_def, Nat.mod_eq_of_lt hr]

theorem mix1_zero : mix1 0#64 = 0#64 := by decide

theorem mix2_zero : mix2 0#64 = 0#64 := by decide

/-- Settles O16: R10's rotation is the library's, and the examples are evaluated. -/
theorem mixingFunctions : Obligations.MixingFunctions := by
  refine ⟨fun x => ?_, fun x => ?_, mix1_zero, mix2_zero, by decide, by decide⟩
  · rw [← rotl64_eq_rotateLeft _ (by decide)]
    rfl
  · rw [← rotl64_eq_rotateLeft _ (by decide)]
    rfl

/-! ### The tail (R166 to R168) -/

/-- What follows the last whole chunk of a key (R166). -/
def keyTail (B : List Byte) : List Byte := B.drop (16 * (B.length / 16))

/-- The word of at most eight tail bytes: byte `j` is shifted to place `j` and xored in (R167). -/
def tailWord (se : Bool) : List Byte → Word
  | [] => 0#64
  | b :: r => tailByte se b ^^^ (tailWord se r <<< 8)

theorem length_keyTail (B : List Byte) : (keyTail B).length = B.length % 16 := by
  rw [keyTail, List.length_drop]
  omega

theorem byteAt_drop (B : List Byte) (i j : Nat) : byteAt (B.drop i) j = byteAt B (i + j) := by
  simp [byteAt]

theorem tailWord_append (se : Bool) (P : List Byte) (b : Byte) :
    tailWord se (P ++ [b]) = tailWord se P ^^^ (tailByte se b <<< (8 * P.length)) := by
  induction P with
  | nil => simp [tailWord]
  | cons a P ih =>
    rw [List.cons_append, tailWord, tailWord, ih, BitVec.shiftLeft_xor_distrib, ← BitVec.shiftLeft_add, BitVec.xor_assoc,
      List.length_cons, Nat.mul_succ]

/-- One round of assembly takes the words of the bytes before byte `j` to the words of the bytes up to it (R167). -/
theorem tailRound_append (se : Bool) (B P : List Byte) (base : Nat) :
    tailRound se B base (tailWord se (P.take 8), tailWord se (P.drop 8)) P.length =
      (tailWord se ((P ++ [byteAt B (base + P.length)]).take 8),
        tailWord se ((P ++ [byteAt B (base + P.length)]).drop 8)) := by
  by_cases h : P.length < 8
  · have hl : (P ++ [byteAt B (base + P.length)]).length ≤ 8 := by simp; omega
    rw [List.take_of_length_le hl, List.drop_of_length_le hl, List.take_of_length_le h.le, List.drop_of_length_le h.le,
      tailWord_append]
    simp [tailRound, h]
  · have hl : 8 ≤ P.length := Nat.le_of_not_lt h
    rw [List.take_append_of_le_length hl, List.drop_append_of_le_length hl, tailWord_append, List.length_drop]
    simp [tailRound, h]

/-- The words after `n` rounds are those of the first `n` tail bytes. -/
theorem foldl_tailRound (se : Bool) (B : List Byte) {n : Nat} (hn : n ≤ (keyTail B).length) :
    (List.range n).foldl (tailRound se B (16 * (B.length / 16))) (0#64, 0#64) =
      (tailWord se (((keyTail B).take n).take 8), tailWord se (((keyTail B).take n).drop 8)) := by
  induction n with
  | zero => rfl
  | succ n ih =>
    have hlen : ((keyTail B).take n).length = n := List.length_take_of_le (Nat.le_of_succ_le hn)
    have hbyte : (keyTail B)[n] = byteAt B (16 * (B.length / 16) + n) := by
      rw [← byteAt_drop, byteAt, ← keyTail, List.getD_eq_getElem _ _ hn]
    have hround := tailRound_append se B ((keyTail B).take n) (16 * (B.length / 16))
    rw [hlen] at hround
    rw [List.range_succ, List.foldl_append, ih (Nat.le_of_succ_le hn), List.foldl_cons, List.foldl_nil, hround,
      List.take_succ_eq_append_getElem hn, hbyte]

/-- The tail words are those of the first eight tail bytes and of the rest (R167). -/
theorem tailWords_eq (se : Bool) (B : List Byte) :
    tailWords se B = (tailWord se ((keyTail B).take 8), tailWord se ((keyTail B).drop 8)) := by
  rw [tailWords, ← length_keyTail, foldl_tailRound se B le_rfl, List.take_length]

/-- Xor the words of a tail into the accumulators: R168 without its conditions. -/
def xorTail (se : Bool) (T : List Byte) (x : HashState) : HashState :=
  { x with h1 := x.h1 ^^^ mix1 (tailWord se (T.take 8)), h2 := x.h2 ^^^ mix2 (tailWord se (T.drop 8)) }

theorem xorTail_nil (se : Bool) (x : HashState) : xorTail se [] x = x := by
  simp [xorTail, tailWord, mix1_zero, mix2_zero]

theorem xorTail_h2_of_length_le (se : Bool) {T : List Byte} (h : T.length ≤ 8) (x : HashState) :
    (xorTail se T x).h2 = x.h2 := by
  simp [xorTail, List.drop_of_length_le h, tailWord, mix2_zero]

/-- The lines R168 skips would change nothing. -/
theorem mixTail_eq_xorTail (se : Bool) (B : List Byte) (x : HashState) : mixTail se B x = xorTail se (keyTail B) x := by
  unfold mixTail
  split
  · next h => rw [List.eq_nil_of_length_eq_zero ((length_keyTail B).trans h), xorTail_nil]
  · rw [tailWords_eq, xorTail]

/-- Settles O17: the empty word mixes to 0. -/
theorem tailMixingOfAShortTail : Obligations.TailMixingOfAShortTail := by
  intro se B x
  refine ⟨by rw [mixTail_eq_xorTail, tailWords_eq, xorTail], fun h => ?_, fun h => if_pos h⟩
  rw [mixTail_eq_xorTail, xorTail_h2_of_length_le se ((length_keyTail B).trans_le h)]

/-! ### The words of the hash as numbers -/

theorem toNat_rotl64 (x : Word) {r : Nat} (hr : r ≤ 64) : (rotl64 x r).toNat = rotN x.toNat r := by
  have hlow : x.toNat / 2 ^ (64 - r) < 2 ^ r := by
    rw [Nat.div_lt_iff_lt_mul (Nat.two_pow_pos _), ← pow_add, Nat.add_sub_cancel' hr]
    exact x.isLt
  have hhigh : x.toNat * 2 ^ r % 2 ^ 64 = (x.toNat % 2 ^ (64 - r)) <<< r := by
    rw [Nat.shiftLeft_eq, ← Nat.mul_mod_mul_right, ← pow_add, Nat.sub_add_cancel hr]
  rw [rotN, hhigh, Nat.shiftLeft_add_eq_or_of_lt hlow, ← hhigh, rotl64, BitVec.toNat_or, BitVec.toNat_shiftLeft,
    BitVec.toNat_ushiftRight, Nat.shiftLeft_eq, Nat.shiftRight_eq_div_pow]

/-- `BitVec.toNat_add` with the power of 2 as the statements spell it. -/
theorem toNat_add_word (x y : Word) : (x + y).toNat = (x.toNat + y.toNat) % 2 ^ 64 := BitVec.toNat_add x y

theorem toNat_mul_ofNat (x : Word) {c : Nat} (hc : c < 2 ^ 64) : (x * BitVec.ofNat 64 c).toNat = x.toNat * c % 2 ^ 64 := by
  rw [BitVec.toNat_mul, BitVec.toNat_ofNat, Nat.mod_eq_of_lt hc]

theorem toNat_mix1 (x : Word) : (mix1 x).toNat = mix1N x.toNat := by
  rw [mix1, hashC1, hashC2, toNat_mul_ofNat _ (by decide), toNat_rotl64 _ (by decide), toNat_mul_ofNat _ (by decide), mix1N]

theorem toNat_mix2 (x : Word) : (mix2 x).toNat = mix2N x.toNat := by
  rw [mix2, hashC1, hashC2, toNat_mul_ofNat _ (by decide), toNat_rotl64 _ (by decide), toNat_mul_ofNat _ (by decide), mix2N]

theorem toNat_xorShift33 (x : Word) : (xorShift33 x).toNat = x.toNat ^^^ (x.toNat / 2 ^ 33) := by
  rw [xorShift33, BitVec.toNat_xor, BitVec.toNat_ushiftRight, Nat.shiftRight_eq_div_pow]

theorem toNat_fmix64 (x : Word) : (fmix64 x).toNat = fmixN x.toNat := by
  rw [fmix64, toNat_xorShift33, toNat_mul_ofNat _ (by decide), toNat_xorShift33, toNat_mul_ofNat _ (by decide),
    toNat_xorShift33, fmixN]

/-- A length of any size: the machine keeps 64 bits of it, and so does a sum it is xored into (R170). -/
theorem toNat_xor_add (x y : Word) (len : Nat) :
    ((x ^^^ BitVec.ofNat 64 len) + y).toNat = ((x.toNat ^^^ len) + y.toNat) % 2 ^ 64 := by
  rw [toNat_add_word, BitVec.toNat_xor, BitVec.toNat_ofNat, ← Nat.mod_add_mod (x.toNat ^^^ len), Nat.xor_mod_two_pow,
    Nat.mod_eq_of_lt x.isLt]

theorem toNat_xor_add_xor (x y : Word) (len : Nat) :
    ((x ^^^ BitVec.ofNat 64 len) + (y ^^^ BitVec.ofNat 64 len)).toNat =
      ((x.toNat ^^^ len) + (y.toNat ^^^ len)) % 2 ^ 64 := by
  rw [toNat_xor_add, BitVec.toNat_xor, BitVec.toNat_ofNat, ← Nat.add_mod_mod _ (y.toNat ^^^ len), Nat.xor_mod_two_pow,
    Nat.mod_eq_of_lt y.isLt]

/-- A pair of words as numbers. -/
def wordsN (d : Word × Word) : Nat × Nat := (d.1.toNat, d.2.toNat)

theorem wordsN_finalizeHash {x : HashState} {len : Nat} (h : x.len = BitVec.ofNat 64 len) :
    wordsN (finalizeHash x) = finishN len x.h1.toNat x.h2.toNat := by
  rw [wordsN, finalizeHash, finishN, h, toNat_add_word, toNat_add_word, toNat_add_word, toNat_fmix64, toNat_fmix64,
    toNat_xor_add_xor, toNat_xor_add, toNat_xor_add_xor]

/-! ### The key as numbers -/

theorem toNat_append_byte {n : Nat} (x : BitVec n) (b : Byte) : (x ++ b).toNat = b.toNat + 256 * x.toNat := by
  rw [BitVec.toNat_append, ← Nat.shiftLeft_add_eq_or_of_lt b.isLt, Nat.shiftLeft_eq]
  omega

/-- The little-endian number of a stretch of the key, by its first byte; beyond its end a key reads 0. -/
theorem littleN_drop_take_succ (B : List Byte) (j n : Nat) :
    littleN (((B.drop j).take (n + 1)).map BitVec.toNat) =
      (byteAt B j).toNat + 256 * littleN (((B.drop (j + 1)).take n).map BitVec.toNat) := by
  by_cases hj : j < B.length
  · rw [List.drop_eq_getElem_cons hj, List.take_succ_cons, List.map_cons, littleN, byteAt, List.getD_eq_getElem _ _ hj]
  · have hj : B.length ≤ j := Nat.le_of_not_lt hj
    simp [List.drop_of_length_le hj, List.drop_of_length_le (Nat.le_succ_of_le hj), byteAt, hj, littleN]

theorem toNat_le64 (B : List Byte) (j : Nat) : (le64 B j).toNat = littleN (((B.drop j).take 8).map BitVec.toNat) := by
  simp only [littleN_drop_take_succ, List.take_zero, List.map_nil, littleN, le64, toNat_append_byte, Nat.add_assoc,
    Nat.reduceAdd, Nat.mul_zero, Nat.add_zero]

theorem toNat_tailByte (se : Bool) (b : Byte) : (tailByte se b).toNat = tailByteN se b.toNat := by
  have hb : b.toNat < 256 := b.isLt
  have hsmall : (b.setWidth 64).toNat = b.toNat := by rw [BitVec.toNat_setWidth, Nat.mod_eq_of_lt (by omega)]
  cases se with
  | false => exact hsmall
  | true =>
    have hmsb : b.msb = true ↔ 128 ≤ b.toNat := by simp [BitVec.msb_eq_decide]
    rw [tailByte, if_pos rfl, BitVec.toNat_signExtend, hsmall, tailByteN]
    simp only [hmsb, true_and]
    split
    · exact Nat.add_comm _ _
    · rfl

theorem toNat_tailWord (se : Bool) (T : List Byte) : (tailWord se T).toNat = tailN se (T.map BitVec.toNat) := by
  induction T with
  | nil => rfl
  | cons b r ih =>
    rw [tailWord, BitVec.toNat_xor, BitVec.toNat_shiftLeft, toNat_tailByte, ih, Nat.shiftLeft_eq, Nat.mul_comm]
    rfl

/-! ### The streaming form (R163 to R170) -/

/-- A chunk of a key is a chunk of what remains of it. -/
theorem blockStep_drop (B : List Byte) (x : HashState) (i : Nat) : blockStep B x (i + 1) = blockStep (B.drop 16) x i := by
  have hle : ∀ j, le64 (B.drop 16) j = le64 B (16 + j) := fun j => by simp only [le64, byteAt_drop, Nat.add_assoc]
  rw [blockStep, blockStep, hle, hle, ← Nat.add_assoc, Nat.mul_succ, Nat.add_comm (16 * i)]

theorem foldl_blockStep_succ (B : List Byte) (x : HashState) (n : Nat) :
    (List.range (n + 1)).foldl (blockStep B) x = (List.range n).foldl (blockStep (B.drop 16)) (blockStep B x 0) := by
  rw [List.range_succ_eq_map, List.foldl_cons, List.foldl_map]
  simp only [Nat.succ_eq_add_one, blockStep_drop]

/-- Part one of a chunk's step, over numbers (R164). -/
def partOneN (h1 h2 k : Nat) : Nat := ((rotN (h1 ^^^ mix1N k) 27 + h2) * 5 + 0x52dce729) % 2 ^ 64

/-- Part two, over numbers, on the `h1` of part one (R165). -/
def partTwoN (h1 h2 k : Nat) : Nat := ((rotN (h2 ^^^ mix2N k) 31 + h1) * 5 + 0x38495ab5) % 2 ^ 64

theorem toNat_add_mul_five_add (y z : Word) (c : Nat) :
    ((y + z) * 5#64 + BitVec.ofNat 64 c).toNat = ((y.toNat + z.toNat) * 5 + c) % 2 ^ 64 := by
  simp only [BitVec.toNat_add, BitVec.toNat_mul, BitVec.toNat_ofNat]
  omega

theorem toNat_blockPartOne_h1 (k : Word) (x : HashState) :
    (blockPartOne k x).h1.toNat = partOneN x.h1.toNat x.h2.toNat k.toNat := by
  rw [blockPartOne, toNat_add_mul_five_add, toNat_rotl64 _ (by decide), BitVec.toNat_xor, toNat_mix1, partOneN]

theorem toNat_blockPartTwo_h2 (k : Word) (x : HashState) :
    (blockPartTwo k x).h2.toNat = partTwoN x.h1.toNat x.h2.toNat k.toNat := by
  rw [blockPartTwo, toNat_add_mul_five_add, toNat_rotl64 _ (by decide), BitVec.toNat_xor, toNat_mix2, partTwoN]

theorem blockPartOne_h2 (k : Word) (x : HashState) : (blockPartOne k x).h2 = x.h2 := by rw [blockPartOne]

theorem blockPartTwo_h1 (k : Word) (x : HashState) : (blockPartTwo k x).h1 = x.h1 := by rw [blockPartTwo]

theorem blockStep_len (B : List Byte) (x : HashState) (i : Nat) : (blockStep B x i).len = x.len := by
  rw [blockStep, blockPartTwo, blockPartOne]

theorem toNat_blockStep_h1 (B : List Byte) (x : HashState) :
    (blockStep B x 0).h1.toNat = partOneN x.h1.toNat x.h2.toNat (littleN ((B.take 8).map BitVec.toNat)) := by
  rw [blockStep, blockPartTwo_h1, toNat_blockPartOne_h1, toNat_le64, Nat.mul_zero, List.drop_zero]

theorem toNat_blockStep_h2 (B : List Byte) (x : HashState) :
    (blockStep B x 0).h2.toNat =
      partTwoN (blockStep B x 0).h1.toNat x.h2.toNat (littleN (((B.drop 8).take 8).map BitVec.toNat)) := by
  rw [toNat_blockStep_h1, blockStep, toNat_blockPartTwo_h2, blockPartOne_h2, toNat_blockPartOne_h1, toNat_le64, toNat_le64,
    Nat.mul_zero, Nat.zero_add, List.drop_zero]

/-- One chunk of the streaming form. The equation is between functions: on applied arguments the kernel would unfold their sums,
a large constant one successor at a time. -/
theorem hashN_succ_eq (se : Bool) (len n : Nat) :
    hashN se len (n + 1) = fun B h1 h2 =>
      hashN se len n (B.drop 16) (partOneN h1 h2 (littleN (B.take 8)))
        (partTwoN (partOneN h1 h2 (littleN (B.take 8))) h2 (littleN ((B.drop 8).take 8))) := rfl

theorem hashN_zero_eq (se : Bool) (len : Nat) :
    hashN se len 0 = fun B h1 h2 =>
      finishN len (h1 ^^^ mix1N (tailN se (B.take 8))) (h2 ^^^ mix2N (tailN se (B.drop 8))) := rfl

/-- The first chunk of the streaming form is the first block step. -/
theorem hashN_succ (se : Bool) (len n : Nat) (B : List Byte) (x : HashState) :
    hashN se len (n + 1) (B.map BitVec.toNat) x.h1.toNat x.h2.toNat =
      hashN se len n ((B.drop 16).map BitVec.toNat) (blockStep B x 0).h1.toNat (blockStep B x 0).h2.toNat := by
  rw [hashN_succ_eq, toNat_blockStep_h2, toNat_blockStep_h1, List.map_take, List.map_take, List.map_drop, List.map_drop]

theorem hashN_zero (se : Bool) (T : List Byte) {x : HashState} {len : Nat} (h : x.len = BitVec.ofNat 64 len) :
    hashN se len 0 (T.map BitVec.toNat) x.h1.toNat x.h2.toNat = wordsN (finalizeHash (xorTail se T x)) := by
  have hlen : (xorTail se T x).len = BitVec.ofNat 64 len := by rw [xorTail, h]
  rw [wordsN_finalizeHash hlen, xorTail, BitVec.toNat_xor, BitVec.toNat_xor, toNat_mix1, toNat_mix2, toNat_tailWord,
    toNat_tailWord, List.map_take, List.map_drop, hashN_zero_eq]

/-- From any accumulators, `n` chunks and then the bytes behind them. -/
theorem hashN_eq_finalizeHash_foldl (se : Bool) {len : Nat} (n : Nat) (B : List Byte) {x : HashState}
    (h : x.len = BitVec.ofNat 64 len) :
    hashN se len n (B.map BitVec.toNat) x.h1.toNat x.h2.toNat =
      wordsN (finalizeHash (xorTail se (B.drop (16 * n)) ((List.range n).foldl (blockStep B) x))) := by
  induction n generalizing B x with
  | zero => rw [hashN_zero se B h, Nat.mul_zero, List.drop_zero, List.range_zero, List.foldl_nil]
  | succ n ih =>
    rw [hashN_succ, ih (B.drop 16) ((blockStep_len B x 0).trans h), foldl_blockStep_succ, List.drop_drop, Nat.mul_succ,
      Nat.add_comm 16]

/-- `establish` is the streaming form with the seed in both accumulators. -/
theorem wordsN_establish (se : Bool) (B : List Byte) (seed : Word) :
    wordsN (establish se B seed) = hashN se B.length (B.length / 16) (B.map BitVec.toNat) seed.toNat seed.toNat := by
  rw [establish, mixTail_eq_xorTail, keyTail]
  exact (hashN_eq_finalizeHash_foldl se (B.length / 16) B (x := ⟨seed, seed, BitVec.ofNat 64 B.length⟩) rfl).symm

/-- Settles O18: the two words of `establish`, as numbers. -/
theorem establishAgreesWithStreamingForm : Obligations.EstablishAgreesWithStreamingForm := by
  intro se B seed
  rw [← wordsN_establish, wordsN]

/-! ### The digest a keyed command leaves (R171, R177) -/

/-- Settles O19: with a legal `KEYLEN` the command writes the digest and completes. -/
theorem hashWritesTheDigest : Obligations.HashWritesTheDigest := by
  intro i shape s B hi hlen hkey
  obtain ⟨d, hd⟩ : ∃ d, establish s.cfg.tailSignExtend B s.seed = d := ⟨_, rfl⟩
  have hrun : exec i s = .next (complete (writeDigest d s)) := by
    rw [exec_of_mem_hashCommands hi, hashCommand_ok ((keylenOK_iff shape s).2 hlen) ((digest_of_key hkey).trans hd)]
  rw [hd]
  exact ⟨_, hrun, ⟨rfl, rfl⟩, by constructor <;> rfl, rfl, rfl, rfl, rfl, rfl, rfl⟩

/-- A `HASH` that ends without error leaves the digest in `H1` and `H2` (R177). -/
theorem hashCommand_digest {shape : Shape} {s : State} (h : (hashCommand shape s).EndedOK) :
    ∃ d, digest shape s = d ∧ (hashCommand shape s).h1 = d.1 ∧ (hashCommand shape s).h2 = d.2 := by
  rcases hashCommand_cases shape s with ⟨-, e⟩ | ⟨-, d, hd, e⟩
  · have := h.noErr
    rw [e] at this
    cases this
  · exact ⟨d, hd, by rw [e]; rfl, by rw [e]; rfl⟩

/-- A running `INDEX`, `ADD` or `TEST` that ends without error leaves the digest in `H1` and `H2` (R207, R232). -/
theorem filterCommand_digest {i : Instr} {shape : Shape} {s : State} (hs : s.Running)
    (h : (filterCommand shape (onOkOf i) s).EndedOK) :
    ∃ d, digest shape s = d ∧ (filterCommand shape (onOkOf i) s).h1 = d.1 ∧ (filterCommand shape (onOkOf i) s).h2 = d.2 := by
  obtain ⟨-, d, L, p, hd, -, e⟩ := filterCommand_endedOK hs h
  obtain ⟨h1, h2, -, -⟩ := onOkOf_outputs i L (writeIndices L p (writeDigest d s))
  exact ⟨d, hd, by rw [e]; exact h1, by rw [e]; exact h2⟩

/-- Whatever keyed command hashes, an end without error leaves the digest of its key in `H1` and `H2`. -/
theorem digest_of_endedOK {i : Instr} {shape : Shape} {s t : State} (hi : (i, shape) ∈ hashCommands ++ filterCommands)
    (hs : s.Running) (he : exec i s = .next t) (ht : t.EndedOK) : ∃ d, digest shape s = d ∧ t.h1 = d.1 ∧ t.h2 = d.2 := by
  rcases List.mem_append.1 hi with hi | hi
  · cases (exec_of_mem_hashCommands hi s).symm.trans he
    exact hashCommand_digest ht
  · cases (exec_of_mem_filterCommands hi s).symm.trans he
    exact filterCommand_digest hs ht

/-- Settles O20: both commands leave their digest, and the digests are equal. -/
theorem digestDependsOnKeyAndSeedOnly : Obligations.DigestDependsOnKeyAndSeedOnly := by
  intro i i' shape shape' s u t v hi hi' hs hu hkey ht hv htok hvok
  obtain ⟨d, hd, ht1, ht2⟩ := digest_of_endedOK hi hs ht htok
  obtain ⟨e, he, hv1, hv2⟩ := digest_of_endedOK hi' hu hv hvok
  have hde : d = e := hd.symm.trans (hkey.digest_eq.trans he)
  rw [ht1, ht2, hv1, hv2, hde]
  exact ⟨rfl, rfl⟩

end Sys2Proof.Machine
end

section
/-! PROOFS of the statements about index generation (42_index_generation.md): the generation in closed form, when it can end, and
what a generating command does with its answer.

The count of log entry 8 is right because a candidate goes through two progressions. The masked words are the numbers below `2^63`
that agree with `h1` modulo `g = gcd(h2, 2^63)` (`image_progression`), so the candidates are the terms modulo `m` of a progression of
step `g`, which repeats after `m / gcd(g, m)` terms and no sooner (`candidateAt_mem_candidateSet`, `exists_candidateAt_of_mem`,
`card_candidateSet`). -/

namespace Sys2Proof.Machine

open Sys2Proof.Claims

/-! ### Progressions modulo a number -/

/-- The terms of a progression of step `d` are distinct modulo `m` within one period. -/
theorem card_image_progression {m n : Nat} (hm : 0 < m) (a d : Nat) (hn : n ≤ m / m.gcd d) :
    ((Finset.range n).image fun j => (a + j * d) % m).card = n := by
  rw [Finset.card_image_of_injOn, Finset.card_range]
  intro i hi j hj hij
  rw [Finset.coe_range, Set.mem_Iio] at hi hj
  have hmul : i * d ≡ j * d [MOD m] := Nat.ModEq.add_left_cancel' a hij
  exact (Nat.ModEq.cancel_right_div_gcd hm hmul).eq_of_lt_of_lt (hi.trans_le hn) (hj.trans_le hn)

/-- A term's place in the period does not change it. -/
theorem progression_mod_period (a d m j : Nat) : (a + j % (m / m.gcd d) * d) % m = (a + j * d) % m := by
  refine Nat.ModEq.add_left a ?_
  obtain ⟨c, hc⟩ : m ∣ m / m.gcd d * d := by
    rw [Nat.div_mul_right_comm (Nat.gcd_dvd_left m d), Nat.mul_div_assoc _ (Nat.gcd_dvd_right m d)]
    exact Nat.dvd_mul_right _ _
  have hj : j * d = j % (m / m.gcd d) * d + m * (c * (j / (m / m.gcd d))) := by
    conv_lhs => rw [← Nat.mod_add_div j (m / m.gcd d)]
    rw [← Nat.mul_assoc m, ← hc]
    ring
  rw [Nat.ModEq, hj, Nat.add_mul_mod_self_left]

/-- Modulo `n`, a progression of step `d` keeps the residue of its start modulo `gcd(n, d)`. -/
theorem exists_progression_mod_eq {n : Nat} (hn : 0 < n) (a d i : Nat) :
    ∃ j < n / n.gcd d, (a + i * d) % n = a % n.gcd d + j * n.gcd d := by
  have hmod : (a + i * d) % n % n.gcd d = a % n.gcd d := by
    obtain ⟨c, hc⟩ := (Nat.gcd_dvd_right n d).mul_left i
    rw [Nat.mod_mod_of_dvd _ (Nat.gcd_dvd_left n d), hc, Nat.add_mul_mod_self_left]
  refine ⟨(a + i * d) % n / n.gcd d, Nat.div_lt_div_of_lt_of_dvd (Nat.gcd_dvd_left n d) (Nat.mod_lt _ hn), ?_⟩
  rw [← hmod, Nat.mod_add_div']

/-- Within one period a progression modulo `n` takes every value that agrees with its start modulo `gcd(n, d)`. -/
theorem image_progression {n : Nat} (hn : 0 < n) (a d : Nat) :
    ((Finset.range (n / n.gcd d)).image fun i => (a + i * d) % n) =
      (Finset.range (n / n.gcd d)).image fun j => a % n.gcd d + j * n.gcd d := by
  refine Finset.eq_of_subset_of_card_le (fun x hx => ?_) ?_
  · obtain ⟨i, -, rfl⟩ := Finset.mem_image.1 hx
    obtain ⟨j, hj, e⟩ := exists_progression_mod_eq hn a d i
    exact Finset.mem_image.2 ⟨j, Finset.mem_range.2 hj, e.symm⟩
  · rw [card_image_progression hn a d (Nat.le_refl _)]
    exact Finset.card_image_le.trans (Finset.card_range _).le

/-! ### The candidates (R201, R202) -/

section Candidates

variable (h1 h2 : Word) (m : Nat)

/-- The masked words are the numbers of one residue modulo `g = gcd(h2, 2^63)` (log entry 8). -/
def wordStep (h2 : Word) : Nat := (2 ^ 63).gcd h2.toNat

theorem distinctCandidates_eq : distinctCandidates h2 m = min (2 ^ 63 / wordStep h2) (m / m.gcd (wordStep h2)) := by
  rw [distinctCandidates, wordStep, Nat.gcd_comm h2.toNat, Nat.gcd_comm _ m]

theorem candidateAt_eq (i : Nat) : candidateAt h1 h2 m i = (h1.toNat + i * h2.toNat) % 2 ^ 63 % m := by
  rw [candidateAt, Nat.mod_mod_of_dvd _ (by decide : 2 ^ 63 ∣ 2 ^ 64)]

/-- The loop's `h` after `i` passes gives candidate `i`. -/
theorem candidate_eq_candidateAt (i : Nat) : candidate m (h1 + BitVec.ofNat 64 i * h2) = candidateAt h1 h2 m i := by
  rw [candidate_eq_mod, candidateAt, BitVec.toNat_add, BitVec.toNat_mul, BitVec.toNat_ofNat, Nat.mod_mul_mod,
    Nat.add_mod_mod]

/-- The candidates of R201, in the closed form of log entry 8. -/
def candidateSet : Finset Nat :=
  (Finset.range (distinctCandidates h2 m)).image fun j => (h1.toNat % wordStep h2 + j * wordStep h2) % m

variable {m}

theorem card_candidateSet (hm : 0 < m) : (candidateSet h1 h2 m).card = distinctCandidates h2 m :=
  card_image_progression hm _ _ (by rw [distinctCandidates_eq]; exact min_le_right _ _)

/-- Every candidate is one of the closed form: its masked word has the step's residue, and its place is taken modulo the period. -/
theorem candidateAt_mem_candidateSet (hm : 0 < m) (i : Nat) : candidateAt h1 h2 m i ∈ candidateSet h1 h2 m := by
  obtain ⟨j, hj, e⟩ := exists_progression_mod_eq (n := 2 ^ 63) (by decide) h1.toNat h2.toNat i
  have hperiod : 0 < m / m.gcd (wordStep h2) :=
    Nat.div_pos (Nat.gcd_le_left _ hm) (Nat.gcd_pos_of_pos_left _ hm)
  refine Finset.mem_image.2 ⟨j % (m / m.gcd (wordStep h2)), ?_, ?_⟩
  · rw [Finset.mem_range, distinctCandidates_eq]
    exact lt_min ((Nat.mod_le _ _).trans_lt hj) (Nat.mod_lt _ hperiod)
  · rw [progression_mod_period, candidateAt_eq, e, wordStep]

/-- Every value of the closed form is a candidate, among the first `2^63`. -/
theorem exists_candidateAt_of_mem {c : Nat} (h : c ∈ candidateSet h1 h2 m) : ∃ i < 2 ^ 63, candidateAt h1 h2 m i = c := by
  obtain ⟨j, hj, rfl⟩ := Finset.mem_image.1 h
  rw [Finset.mem_range, distinctCandidates_eq, lt_min_iff] at hj
  have hmem := Finset.mem_image_of_mem (fun j => h1.toNat % wordStep h2 + j * wordStep h2) (Finset.mem_range.2 hj.1)
  rw [wordStep, ← image_progression (by decide), ← wordStep] at hmem
  obtain ⟨i, hi, e⟩ := Finset.mem_image.1 hmem
  exact ⟨i, (Finset.mem_range.1 hi).trans_le (Nat.div_le_self _ _), by rw [candidateAt_eq, e]⟩

end Candidates

/-! ### The accepted candidates (R203) -/

section Accepted

variable (h1 h2 : Word) (m : Nat)

theorem acceptedAfter_succ (n : Nat) :
    acceptedAfter h1 h2 m (n + 1) = accept (acceptedAfter h1 h2 m n) (candidateAt h1 h2 m n) := rfl

theorem nodup_acceptedAfter (n : Nat) : (acceptedAfter h1 h2 m n).Nodup := by
  induction n with
  | zero => exact List.nodup_nil
  | succ n ih => exact nodup_accept _ ih

theorem mem_acceptedAfter {n c : Nat} : c ∈ acceptedAfter h1 h2 m n ↔ ∃ i < n, candidateAt h1 h2 m i = c := by
  induction n with
  | zero => simp [acceptedAfter]
  | succ n ih =>
    rw [acceptedAfter_succ, mem_accept, ih, Nat.exists_lt_succ_right, eq_comm (a := c)]

theorem length_acceptedAfter_mono : Monotone fun n => (acceptedAfter h1 h2 m n).length :=
  monotone_nat_of_le_succ fun _ => length_le_accept _ _

variable {m}

theorem length_acceptedAfter_le (hm : 0 < m) (n : Nat) : (acceptedAfter h1 h2 m n).length ≤ distinctCandidates h2 m := by
  rw [← List.toFinset_card_of_nodup (nodup_acceptedAfter h1 h2 m n), ← card_candidateSet h1 h2 hm]
  refine Finset.card_le_card fun c hc => ?_
  obtain ⟨i, -, rfl⟩ := (mem_acceptedAfter h1 h2 m).1 (List.mem_toFinset.1 hc)
  exact candidateAt_mem_candidateSet h1 h2 hm i

/-- The first `2^63` candidates hold every distinct one. -/
theorem distinctCandidates_le_length (hm : 0 < m) :
    distinctCandidates h2 m ≤ (acceptedAfter h1 h2 m (2 ^ 63)).length := by
  rw [← List.toFinset_card_of_nodup (nodup_acceptedAfter h1 h2 m _), ← card_candidateSet h1 h2 hm]
  refine Finset.card_le_card fun c hc => ?_
  exact List.mem_toFinset.2 ((mem_acceptedAfter h1 h2 m).2 (exists_candidateAt_of_mem h1 h2 hc))

/-- Where the sequence holds `k` distinct candidates, some number of probes is the first to find them: each probe accepts at
most one. -/
theorem exists_first_accepted {k : Nat} (hm : 0 < m) (hk : k ≤ distinctCandidates h2 m) :
    ∃ n, (acceptedAfter h1 h2 m n).length = k ∧ ∀ j < n, (acceptedAfter h1 h2 m j).length < k := by
  have hex : ∃ n, k ≤ (acceptedAfter h1 h2 m n).length := ⟨_, hk.trans (distinctCandidates_le_length h1 h2 hm)⟩
  have hbefore : ∀ j < Nat.find hex, (acceptedAfter h1 h2 m j).length < k := fun j hj => not_le.1 (Nat.find_min hex hj)
  refine ⟨Nat.find hex, le_antisymm ?_ (Nat.find_spec hex), hbefore⟩
  cases hn : Nat.find hex with
  | zero => exact Nat.zero_le k
  | succ j =>
    have hone := length_accept_le (acceptedAfter h1 h2 m j) (candidateAt h1 h2 m j)
    have hj := hbefore j (by omega)
    rw [acceptedAfter_succ]
    omega

end Accepted

/-! ### The loop (R201, R204) -/

section Loop

variable {h h1 h2 p plim : Word} {k m n fuel : Nat} {L : List Nat}

theorem hashesLoop_found (hk : k ≤ L.length) : hashesLoop h2 k m plim (fuel + 1) h p L = .ok L p := by
  rw [hashesLoop, if_pos hk]

theorem hashesLoop_limit (hk : L.length < k) (hp : plim ≠ 0#64) :
    hashesLoop h2 k m plim (fuel + 1) h plim L = .exhausted plim := by
  rw [hashesLoop, if_neg hk.not_ge, if_pos ⟨hp, rfl⟩]

theorem hashesLoop_pass (hk : L.length < k) (hp : plim ≠ 0#64 → p ≠ plim) :
    hashesLoop h2 k m plim (fuel + 1) h p L =
      hashesLoop h2 k m plim fuel (h + h2) (p + 1#64) (accept L (candidate m h)) := by
  rw [hashesLoop, if_neg hk.not_ge, if_neg fun e => hp e.1 e.2]

/-- A count below the limit is not the limit: both fit in 64 bits. -/
theorem ofNat_ne_of_lt_toNat {w : Word} {j : Nat} (h : j < w.toNat) : BitVec.ofNat 64 j ≠ w := by
  rintro rfl
  exact absurd h (by rw [BitVec.toNat_ofNat]; exact (Nat.mod_le _ _).not_gt)

/-- `n` passes that do not return have accepted what the first `n` candidates give. -/
theorem hashesLoop_passes (fuel : Nat) (hk : ∀ j < n, (acceptedAfter h1 h2 m j).length < k)
    (hp : plim ≠ 0#64 → n ≤ plim.toNat) :
    hashesLoop h2 k m plim (fuel + n) h1 0#64 [] =
      hashesLoop h2 k m plim fuel (h1 + BitVec.ofNat 64 n * h2) (BitVec.ofNat 64 n) (acceptedAfter h1 h2 m n) := by
  induction n generalizing fuel with
  | zero => simp [acceptedAfter]
  | succ n ih =>
    have hadvance : h1 + BitVec.ofNat 64 n * h2 + h2 = h1 + (BitVec.ofNat 64 n + 1#64) * h2 := by
      rw [BitVec.add_mul, BitVec.one_mul, BitVec.add_assoc]
    rw [← Nat.succ_add_eq_add_succ, ih (fuel + 1) (fun j hj => hk j (by omega)) (fun h0 => by have := hp h0; omega),
      hashesLoop_pass (hk n (by omega)) (fun h0 => ofNat_ne_of_lt_toNat (hp h0)), hadvance, candidate_eq_candidateAt,
      acceptedAfter_succ, BitVec.ofNat_add]

/-- The probe count of an `OK` answer stays within the limit (R204). -/
theorem hashesLoop_probes_le {p' : Word} {L' : List Nat} (h0 : plim ≠ 0#64) :
    ∀ {fuel : Nat} {h p : Word} {L : List Nat}, hashesLoop h2 k m plim fuel h p L = .ok L' p' →
      p.toNat ≤ plim.toNat → p'.toNat ≤ plim.toNat
  | 0, _, _, _, e, _ => by simp [hashesLoop] at e
  | fuel + 1, h, p, L, e, hp => by
    rcases le_or_gt k L.length with hk | hk
    · rw [hashesLoop_found hk] at e
      cases e
      exact hp
    · by_cases hpl : p = plim
      · subst hpl
        rw [hashesLoop_limit hk h0] at e
        cases e
      · rw [hashesLoop_pass hk fun _ => hpl] at e
        refine hashesLoop_probes_le h0 e ?_
        have hlt : p.toNat < plim.toNat := lt_of_le_of_ne hp fun e => hpl (BitVec.eq_of_toNat_eq e)
        exact (Nat.mod_le (p.toNat + 1) (2 ^ 64)).trans hlt

end Loop

/-! ### The generation in closed form (R201 to R205) -/

section Generation

variable {h1 h2 plim : Word} {k m n : Nat}

theorem hashes_of_le (hk : k ≤ distinctCandidates h2 m) :
    hashes h1 h2 k m plim = hashesLoop h2 k m plim (2 ^ 64 + 1) h1 0#64 [] := if_pos hk

/-- The first number of probes that finds `k` distinct candidates gives the answer, if the limit allows it. -/
theorem hashes_of_first (hm : 0 < m) (hlen : (acceptedAfter h1 h2 m n).length = k)
    (hfirst : ∀ j < n, (acceptedAfter h1 h2 m j).length < k) (hlim : plim = 0#64 ∨ n ≤ plim.toNat) :
    hashes h1 h2 k m plim = .ok (acceptedAfter h1 h2 m n) (BitVec.ofNat 64 n) := by
  have hk : k ≤ distinctCandidates h2 m := hlen ▸ length_acceptedAfter_le h1 h2 hm n
  have hn : n ≤ 2 ^ 63 := by
    by_contra hn
    exact absurd (hk.trans (distinctCandidates_le_length h1 h2 hm)) (hfirst _ (not_le.1 hn)).not_ge
  have hfuel : 2 ^ 64 + 1 = 2 ^ 64 - n + 1 + n := by omega
  rw [hashes_of_le hk, hfuel, hashesLoop_passes _ hfirst (fun h0 => hlim.resolve_left h0), hashesLoop_found hlen.ge]

/-- Fewer than `k` distinct candidates by the limit exhaust the generation. -/
theorem hashes_of_limit (h0 : plim ≠ 0#64) (hlen : (acceptedAfter h1 h2 m plim.toNat).length < k) :
    hashes h1 h2 k m plim = .exhausted plim := by
  by_cases hk : k ≤ distinctCandidates h2 m
  · have hfuel : 2 ^ 64 + 1 = 2 ^ 64 - plim.toNat + 1 + plim.toNat := by have := plim.isLt; omega
    rw [hashes_of_le hk, hfuel, hashesLoop_passes _
      (fun j hj => (length_acceptedAfter_mono h1 h2 m hj.le).trans_lt hlen) (fun _ => Nat.le_refl _),
      BitVec.ofNat_toNat, BitVec.setWidth_eq, hashesLoop_limit hlen h0]
  · rw [hashes, if_neg hk, if_neg h0]

/-- Without a limit, a sequence of fewer than `k` distinct candidates never ends the generation. -/
theorem hashes_never (hk : distinctCandidates h2 m < k) : hashes h1 h2 k m 0#64 = .never := by
  rw [hashes, if_neg hk.not_ge, if_pos rfl]

end Generation

/-- Settles O21: by whether the sequence holds `k` distinct candidates, and whether the limit allows the probes to find them. -/
theorem generationTakesTheFirstKDistinctCandidates : Obligations.GenerationTakesTheFirstKDistinctCandidates := by
  intro h1 h2 plim k m _ hm8 _
  have hm : 0 < m := by omega
  rcases le_or_gt k (distinctCandidates h2 m) with hk | hk
  · obtain ⟨n, hlen, hfirst⟩ := exists_first_accepted h1 h2 hm hk
    by_cases hlim : plim = 0#64 ∨ n ≤ plim.toNat
    · exact .inl ⟨n, hlim, hlen, hfirst, hashes_of_first hm hlen hfirst hlim⟩
    · obtain ⟨h0, hn⟩ := not_or.1 hlim
      have hfew := hfirst _ (not_le.1 hn)
      exact .inr (.inl ⟨h0, hfew, hashes_of_limit h0 hfew⟩)
  · have hfew : ∀ n, (acceptedAfter h1 h2 m n).length < k := fun n => (length_acceptedAfter_le h1 h2 hm n).trans_lt hk
    by_cases h0 : plim = 0#64
    · subst h0
      exact .inr (.inr ⟨rfl, hfew, hashes_never hk⟩)
    · exact .inr (.inl ⟨h0, hfew _, hashes_of_limit h0 (hfew _)⟩)

/-- Settles O22: the loop keeps the list distinct and below `m`, and the count within the limit. -/
theorem okGenerationIsKDistinctIndices : Obligations.OkGenerationIsKDistinctIndices := by
  intro h1 h2 plim p k m L hm h
  have hloop := hashes_ok_loop h
  obtain ⟨hlen, hnodup, hlt⟩ := hashesLoop_ok hm hloop (Nat.zero_le k) List.nodup_nil (by simp)
  exact ⟨hlen, hnodup, hlt, fun h0 => hashesLoop_probes_le h0 hloop (Nat.zero_le _)⟩

/-! ### When a generation ends (R205, R206) -/

theorem distinctCandidates_le_m (h2 : Word) (m : Nat) : distinctCandidates h2 m ≤ m :=
  (min_le_right _ _).trans (Nat.div_le_self _ _)

theorem distinctCandidates_zero (m : Nat) : distinctCandidates 0#64 m ≤ 1 := by
  refine (min_le_left _ _).trans ?_
  rw [BitVec.toNat_zero, Nat.gcd_zero_left]
  decide

/-- Where `m` divides `2^63` the mask changes nothing: the candidates repeat after `m / gcd(h2 mod m, m)`. -/
theorem distinctCandidates_le_of_dvd (h2 : Word) {m : Nat} (hm : m ∣ 2 ^ 63) :
    distinctCandidates h2 m ≤ m / (h2.toNat % m).gcd m := by
  have hg : (h2.toNat.gcd (2 ^ 63)).gcd m = (h2.toNat % m).gcd m := by
    rw [Nat.gcd_assoc, Nat.gcd_eq_right hm, Nat.gcd_comm, Nat.gcd_rec]
  rw [← hg]
  exact min_le_right _ _

/-- An odd step reaches every index. -/
theorem distinctCandidates_odd {h2 : Word} (hodd : h2.toNat % 2 = 1) {m : Nat} (hm : m ≤ 2 ^ 63) :
    distinctCandidates h2 m = m := by
  have hg : h2.toNat.gcd (2 ^ 63) = 1 := (Nat.coprime_two_right.2 (Nat.odd_iff.2 hodd)).pow_right 63
  rw [distinctCandidates, hg, Nat.gcd_one_left, Nat.div_one, Nat.div_one, min_eq_right hm]

/-- Settles O23: in each case the sequence holds fewer than `k` distinct candidates. -/
theorem degenerateGenerationsNeverEnd : Obligations.DegenerateGenerationsNeverEnd := by
  intro h1 h2 k m _ hm
  refine ⟨fun hk => hashes_never ((distinctCandidates_le_m h2 m).trans_lt hk), ?_, ?_⟩
  · rintro rfl hk
    exact hashes_never ((distinctCandidates_zero m).trans_lt hk)
  · rintro ⟨e, rfl⟩ - hk
    have he : e ≤ 63 := (Nat.pow_le_pow_iff_right (a := 2) (by decide)).1 (hm.trans (by decide))
    exact hashes_never ((distinctCandidates_le_of_dvd h2 (Nat.pow_dvd_pow 2 he)).trans_lt hk)

/-- One index takes one probe, whatever the limit. -/
theorem hashes_one (h1 h2 plim : Word) {m : Nat} (hm : 0 < m) :
    hashes h1 h2 1 m plim = .ok [h1.toNat % 2 ^ 63 % m] 1#64 := by
  have hfirst : acceptedAfter h1 h2 m 1 = [h1.toNat % 2 ^ 63 % m] := by
    simp [acceptedAfter, candidateAt_eq]
  have hlim : plim = 0#64 ∨ 1 ≤ plim.toNat := by bv_omega
  rw [hashes_of_first hm (n := 1) (by rw [hfirst]; rfl) (by simp [acceptedAfter]) hlim, hfirst]

/-- Settles O24: an odd step reaches `m` distinct candidates, and the first candidate is the one index. -/
theorem generationEndsForOddStepOrOneIndex : Obligations.GenerationEndsForOddStepOrOneIndex := by
  intro h1 h2 k m hm8 hm
  have hpos : 0 < m := by omega
  refine ⟨fun hodd hk => ?_, fun plim => hashes_one h1 h2 plim hpos⟩
  obtain ⟨n, hlen, hfirst⟩ := exists_first_accepted h1 h2 hpos (hk.trans (distinctCandidates_odd hodd (by omega)).ge)
  exact ⟨_, _, hashes_of_first hpos hlen hfirst (.inl rfl)⟩

/-! ### The commands (R207) -/

/-- A generating command with legal operands whose generation succeeds. -/
theorem exec_of_generation_ok {i : Instr} {shape : Shape} {s : State} {d : Word × Word} {L : List Nat} {p : Word}
    (hi : (i, shape) ∈ filterCommands) (hs : ParamsOK shape s) (hd : digest shape s = d)
    (hg : generation shape s = .ok L p) :
    exec i s = .next (complete (onOkOf i L (writeIndices L p (writeDigest d s)))) := by
  rw [exec_of_mem_filterCommands hi, filterCommand_ok ((paramsOK_iff shape s).1 hs) hd hg]

theorem onOkOf_of_mem_indexCommands {i : Instr} {shape : Shape} (h : (i, shape) ∈ indexCommands) : onOkOf i = indexOnly := by
  have e : ∀ c ∈ indexCommands, onOkOf c.1 = indexOnly := by simp [indexCommands, onOkOf]
  exact e _ h

theorem mem_filterCommands_of_mem_indexCommands {i : Instr} {shape : Shape} (h : (i, shape) ∈ indexCommands) :
    (i, shape) ∈ filterCommands := List.mem_append_left _ (List.mem_append_left _ h)

/-- The index buffer after a successful generation of `k` indices. -/
theorem word_storeIndices_zero (m : Memory) {L : List Nat} {k : Nat} (hk : L.length = k) (j : Nat) :
    (storeIndices m 0 L).word j = if j < k then BitVec.ofNat 64 (L.getD j 0) else m.word j := by
  simp [word_storeIndices, hk]

/-- Settles O25: the command writes the digest, the indices and the count, and completes. -/
theorem indexWritesTheIndices : Obligations.IndexWritesTheIndices := by
  intro i shape s B L p hi hs hkey hh
  have hg := (generation_of_key hkey).trans hh
  obtain ⟨hlen, -⟩ := generation_ok_bounds ((paramsOK_iff shape s).1 hs) hg
  obtain ⟨d, hd⟩ : ∃ d, establish s.cfg.tailSignExtend B s.seed = d := ⟨_, rfl⟩
  have hrun := exec_of_generation_ok (mem_filterCommands_of_mem_indexCommands hi) hs ((digest_of_key hkey).trans hd) hg
  rw [onOkOf_of_mem_indexCommands hi] at hrun
  rw [hd]
  exact ⟨_, hrun, ⟨rfl, rfl⟩, by constructor <;> rfl, rfl, rfl, rfl, word_storeIndices_zero s.idx hlen, rfl, rfl⟩

/-- Settles O27: the engine takes its completion step, which answers the state it was given. -/
theorem endlessGenerationStaysBusy : Obligations.EndlessGenerationStaysBusy := by
  intro i shape s rest b B hag hbusy habort hdec hi hs hkey hh
  have hne : i ≠ .abort := by
    rintro rfl
    cases mem_filterCommands.1 hi
  calc step s
      = completionStep { s with agenda := rest } := (step_cons hag).trans (engineStep_unaborted hbusy habort)
    _ = exec i { s with agenda := rest } := completionStep_exec hdec hne
    _ = .next (filterCommand shape (onOkOf i) { s with agenda := rest }) := exec_of_mem_filterCommands hi _
    _ = .next { s with agenda := rest } :=
      congrArg _ (filterCommand_never ((paramsOK_iff shape s).1 hs) ((generation_of_key hkey).trans hh))

/-- Settles O28: the generation is the first candidate, and no command touches these outputs with its indices. -/
theorem oneIndexCommandsComplete : Obligations.OneIndexCommandsComplete := by
  intro i shape s B hi hs hkey hk
  have hm : 0 < s.m.toNat := by obtain ⟨-, ⟨hm8, -⟩, -⟩ := hs; omega
  obtain ⟨d, hd⟩ : ∃ d, establish s.cfg.tailSignExtend B s.seed = d := ⟨_, rfl⟩
  obtain ⟨c, hc⟩ : ∃ c, d.1.toNat % 2 ^ 63 % s.m.toNat = c := ⟨_, rfl⟩
  have hg : generation shape s = .ok [c] 1#64 := by
    rw [generation_of_key hkey, hd, hk, BitVec.toNat_one (by decide), hashes_one d.1 d.2 s.plim hm, hc]
  have hlt : c < 2 ^ 64 := (hc ▸ Nat.mod_lt _ hm).trans s.m.isLt
  obtain ⟨-, -, hprobes, hidx⟩ := onOkOf_outputs i [c] (writeIndices [c] 1#64 (writeDigest d s))
  rw [hd, hc]
  refine ⟨_, exec_of_generation_ok hi hs ((digest_of_key hkey).trans hd) hg, ⟨?_, rfl⟩, hprobes, ?_⟩
  · rw [complete_status, onOkOf_status]
    rfl
  · rw [complete_idx, hidx, writeIndices_idx, word_storeIndices_zero _ (k := 1) rfl]
    exact Nat.mod_eq_of_lt hlt

end Sys2Proof.Machine
end

section
/-! PROOFS of the statements about the filter (43_filter_ops.md): what `ADD`, `TEST`, `CLEAR` and `POPCNT` write, what a filter keeps
while nothing clears it, and the round trip through the window.

Two facts carry most of them. A generation that succeeds answers what the unlimited one answers (`hashes_unlimited_of_ok`), so two
commands with the same key, `SEED`, `K` and `M` have the same indices whatever their limits (`exec_endedOK_agree`). And a quiet step
leaves the bits alone or sets those of an `ADD` that it ends (`step_bits`). -/

namespace Sys2Proof.Machine

open Sys2Proof.Claims

/-! ### `ADD` and `TEST` among the generating commands -/

theorem mem_filterCommands_of_mem_addCommands {i : Instr} {shape : Shape} (h : (i, shape) ∈ addCommands) :
    (i, shape) ∈ filterCommands := List.mem_append_left _ (List.mem_append_right _ h)

theorem mem_filterCommands_of_mem_testCommands {i : Instr} {shape : Shape} (h : (i, shape) ∈ testCommands) :
    (i, shape) ∈ filterCommands := List.mem_append_right _ h

theorem onOkOf_of_mem_addCommands {i : Instr} {shape : Shape} (h : (i, shape) ∈ addCommands) : onOkOf i = insertIndices := by
  have e : ∀ c ∈ addCommands, onOkOf c.1 = insertIndices := by simp [addCommands, onOkOf]
  exact e _ h

theorem onOkOf_of_mem_testCommands {i : Instr} {shape : Shape} (h : (i, shape) ∈ testCommands) : onOkOf i = testIndices := by
  have e : ∀ c ∈ testCommands, onOkOf c.1 = testIndices := by simp [testCommands, onOkOf]
  exact e _ h

theorem testIndices_result_one {L : List Nat} {s : State} (h : ∀ c ∈ L, s.bits.bit c = true) :
    (testIndices L s).result = 1#64 := if_pos (List.all_eq_true.2 h)

theorem testIndices_result_zero {L : List Nat} {s : State} (h : ∃ c ∈ L, s.bits.bit c = false) :
    (testIndices L s).result = 0#64 := if_neg (by simpa using h)

/-- `TEST` reads no bit but those of its indices. -/
theorem testIndices_result_congr {L : List Nat} {s u : State} (h : ∀ c ∈ L, s.bits.bit c = u.bits.bit c) :
    (testIndices L s).result = (testIndices L u).result := by
  by_cases hall : ∀ c ∈ L, s.bits.bit c = true
  · rw [testIndices_result_one hall, testIndices_result_one fun c hc => (h c hc).symm.trans (hall c hc)]
  · obtain ⟨c, hc, hclear⟩ : ∃ c ∈ L, s.bits.bit c = false := by simpa using hall
    rw [testIndices_result_zero ⟨c, hc, hclear⟩, testIndices_result_zero ⟨c, hc, (h c hc).symm.trans hclear⟩]

/-! ### A successful generation of a command (R207, R232) -/

/-- How a generating command ends when its generation answers `OK` with `L` and `p`. -/
def okEnd (i : Instr) (d : Word × Word) (L : List Nat) (p : Word) (s : State) : State :=
  complete (onOkOf i L (writeIndices L p (writeDigest d s)))

theorem okEnd_of_mem_addCommands {i : Instr} {shape : Shape} (h : (i, shape) ∈ addCommands) (d : Word × Word) (L : List Nat)
    (p : Word) (s : State) : okEnd i d L p s = complete (insertIndices L (writeIndices L p (writeDigest d s))) := by
  rw [okEnd, onOkOf_of_mem_addCommands h]

theorem okEnd_of_mem_testCommands {i : Instr} {shape : Shape} (h : (i, shape) ∈ testCommands) (d : Word × Word) (L : List Nat)
    (p : Word) (s : State) : okEnd i d L p s = complete (testIndices L (writeIndices L p (writeDigest d s))) := by
  rw [okEnd, onOkOf_of_mem_testCommands h]

theorem okEnd_probes (i : Instr) (d : Word × Word) (L : List Nat) (p : Word) (s : State) : (okEnd i d L p s).probes = p := by
  obtain ⟨-, -, hprobes, -⟩ := onOkOf_outputs i L (writeIndices L p (writeDigest d s))
  exact hprobes

theorem okEnd_idx (i : Instr) (d : Word × Word) (L : List Nat) (p : Word) (s : State) :
    (okEnd i d L p s).idx = storeIndices s.idx 0 L := by
  obtain ⟨-, -, -, hidx⟩ := onOkOf_outputs i L (writeIndices L p (writeDigest d s))
  exact hidx

/-- The bits after an `ADD`: those of its indices and those set before (R236). -/
theorem okEnd_bit_of_mem_addCommands {i : Instr} {shape : Shape} (h : (i, shape) ∈ addCommands) (d : Word × Word) (L : List Nat)
    (p : Word) (s : State) (j : Nat) : (okEnd i d L p s).bits.bit j = (decide (j ∈ L) || s.bits.bit j) := by
  rw [okEnd_of_mem_addCommands h]
  exact bit_setBits s.bits L j

/-- The command on the key a statement names. The digest is a variable, so that no later proof unfolds it. -/
theorem exec_of_key_generation_ok {i : Instr} {shape : Shape} {s : State} {B : List Byte} {L : List Nat} {p : Word}
    (hi : (i, shape) ∈ filterCommands) (hs : ParamsOK shape s) (hkey : KeyIs shape s B)
    (hh : hashes (establish s.cfg.tailSignExtend B s.seed).1 (establish s.cfg.tailSignExtend B s.seed).2 s.k.toNat s.m.toNat
      s.plim = .ok L p) :
    ∃ d, establish s.cfg.tailSignExtend B s.seed = d ∧ exec i s = .next (okEnd i d L p s) ∧ L.length = s.k.toNat ∧
      ∀ c ∈ L, c < s.m.toNat := by
  have hg := (generation_of_key hkey).trans hh
  obtain ⟨d, hd⟩ : ∃ d, establish s.cfg.tailSignExtend B s.seed = d := ⟨_, rfl⟩
  exact ⟨d, hd, exec_of_generation_ok hi hs ((digest_of_key hkey).trans hd) hg,
    generation_ok_bounds ((paramsOK_iff shape s).1 hs) hg⟩

/-- Settles O30: the command writes `INDEX`'s outputs, sets the bits of its indices, and completes. -/
theorem addSetsExactlyItsBits : Obligations.AddSetsExactlyItsBits := by
  intro i shape s B L p hi hs hkey hh
  obtain ⟨d, hd, hrun, hlen, hlt⟩ := exec_of_key_generation_ok (mem_filterCommands_of_mem_addCommands hi) hs hkey hh
  rw [okEnd_of_mem_addCommands hi] at hrun
  rw [hd]
  exact ⟨_, hrun, ⟨rfl, rfl⟩, by constructor <;> rfl, rfl, rfl, rfl, word_storeIndices_zero s.idx hlen,
    bit_setBits s.bits L, hlt, rfl⟩

/-- Settles O32: the command writes `INDEX`'s outputs, answers by the bits of its indices, and completes. -/
theorem testReportsWhetherAllBitsAreSet : Obligations.TestReportsWhetherAllBitsAreSet := by
  intro i shape s B L p hi hs hkey hh
  obtain ⟨d, hd, hrun, hlen, -⟩ := exec_of_key_generation_ok (mem_filterCommands_of_mem_testCommands hi) hs hkey hh
  rw [okEnd_of_mem_testCommands hi] at hrun
  rw [hd]
  exact ⟨_, hrun, ⟨rfl, rfl⟩, by constructor <;> rfl, rfl, rfl, rfl, word_storeIndices_zero s.idx hlen, rfl,
    testIndices_result_one, testIndices_result_zero⟩

/-! ### Successful generations agree (R237, R244) -/

/-- A generation that succeeds under a limit answers what the unlimited one answers. -/
theorem hashes_unlimited_of_ok {h1 h2 plim p : Word} {k m : Nat} {L : List Nat} (hm : 0 < m)
    (h : hashes h1 h2 k m plim = .ok L p) : hashes h1 h2 k m 0#64 = .ok L p := by
  have hk : k ≤ distinctCandidates h2 m := by
    by_contra hk
    rw [hashes, if_neg hk] at h
    split at h <;> cases h
  obtain ⟨n, hlen, hfirst⟩ := exists_first_accepted h1 h2 hm hk
  by_cases hlim : plim = 0#64 ∨ n ≤ plim.toNat
  · rw [hashes_of_first hm hlen hfirst (.inl rfl), ← h, hashes_of_first hm hlen hfirst hlim]
  · obtain ⟨h0, hn⟩ := not_or.1 hlim
    rw [hashes_of_limit h0 (hfirst _ (not_le.1 hn))] at h
    cases h

/-- A running command that ends without error ends with the indices of the unlimited generation: at least one, all below `M`. -/
theorem exec_endedOK {i : Instr} {shape : Shape} {s t : State} (hi : (i, shape) ∈ filterCommands) (hs : s.Running)
    (he : exec i s = .next t) (ht : t.EndedOK) :
    ∃ d L p, digest shape s = d ∧ hashes d.1 d.2 s.k.toNat s.m.toNat 0#64 = .ok L p ∧ t = okEnd i d L p s ∧
      L.length = s.k.toNat ∧ 1 ≤ s.k.toNat ∧ ∀ c ∈ L, c < s.m.toNat := by
  cases (exec_of_mem_filterCommands hi s).symm.trans he
  obtain ⟨ho, d, L, p, hd, hg, e⟩ := filterCommand_endedOK hs ht
  obtain ⟨⟨hk, -⟩, ⟨hm, -⟩, -⟩ := (filterOK_iff shape s).1 ho
  obtain ⟨hlen, hlt⟩ := generation_ok_bounds ho hg
  rw [generation, hd] at hg
  exact ⟨d, L, p, hd, hashes_unlimited_of_ok (by omega) hg, e, hlen, hk, hlt⟩

/-- Two commands that hash the same key with the same `K` and `M`, and end without error, end with the same indices. -/
theorem exec_endedOK_agree {i i' : Instr} {shape shape' : Shape} {s u t v : State} (hi : (i, shape) ∈ filterCommands)
    (hi' : (i', shape') ∈ filterCommands) (hs : s.Running) (hu : u.Running) (hkey : SameKey shape s shape' u) (hk : s.k = u.k)
    (hm : s.m = u.m) (he : exec i s = .next t) (he' : exec i' u = .next v) (ht : t.EndedOK) (hv : v.EndedOK) :
    ∃ d L p, t = okEnd i d L p s ∧ v = okEnd i' d L p u ∧ L.length = s.k.toNat ∧ ∀ c ∈ L, c < s.m.toNat := by
  obtain ⟨d, L, p, hd, hg, htL, hlen, -, hlt⟩ := exec_endedOK hi hs he ht
  obtain ⟨d', L', p', hd', hg', hvL, -⟩ := exec_endedOK hi' hu he' hv
  obtain rfl : d = d' := hd.symm.trans (hkey.digest_eq.trans hd')
  rw [← hk, ← hm, hg] at hg'
  cases hg'
  exact ⟨d, L, p, htL, hvL, hlen, hlt⟩

/-- Settles O29: both commands write the same indices and the same count. -/
theorem successfulGenerationsAgree : Obligations.SuccessfulGenerationsAgree := by
  intro i i' shape shape' s u t v hi hi' hs hu hkey hk hm he he' ht hv
  obtain ⟨d, L, p, rfl, rfl, hlen, -⟩ := exec_endedOK_agree hi hi' hs hu hkey hk hm he he' ht hv
  refine ⟨by rw [okEnd_probes, okEnd_probes], fun j hj => ?_⟩
  rw [okEnd_idx, okEnd_idx, word_storeIndices_zero _ hlen, word_storeIndices_zero _ hlen, if_pos hj, if_pos hj]

/-- Settles O31: the indices both `ADD`s end with are the set. -/
theorem addedBitsDoNotDependOnTheProbeLimit : Obligations.AddedBitsDoNotDependOnTheProbeLimit := by
  intro i i' shape shape' s u t v hi hi' hs hu hkey hk hm he he' ht hv
  obtain ⟨d, L, p, rfl, rfl, -⟩ := exec_endedOK_agree (mem_filterCommands_of_mem_addCommands hi)
    (mem_filterCommands_of_mem_addCommands hi') hs hu hkey hk hm he he' ht hv
  exact ⟨L, okEnd_bit_of_mem_addCommands hi d L p s, okEnd_bit_of_mem_addCommands hi' d L p u⟩

/-! ### `CLEAR` and `POPCNT` (R241, R242, R246) -/

/-- Settles O35: `CLEAR` puts the empty zero array in place of the bits and completes. -/
theorem clearZeroesTheWholeStorage : Obligations.ClearZeroesTheWholeStorage := fun s =>
  ⟨_, exec_clear s, Memory.zeroed_bit, rfl⟩

/-- Settles O36: the `TEST` has at least one index, and its bit is 0. -/
theorem testAfterClearGivesZero : Obligations.TestAfterClearGivesZero := by
  intro i shape s t u v hi hclear hbits hu he hv
  cases (exec_clear s).symm.trans hclear
  obtain ⟨d, L, p, -, -, rfl, hlen, hk, -⟩ := exec_endedOK (mem_filterCommands_of_mem_testCommands hi) hu he hv
  obtain ⟨c, hc⟩ := List.exists_mem_of_length_pos (l := L) (by omega)
  have hzero : u.bits.bit c = false := by
    rw [hbits]
    exact Memory.zeroed_bit c
  rw [okEnd_of_mem_testCommands hi]
  exact testIndices_result_zero ⟨c, hc, hzero⟩

theorem countBits_eq_card (m : Memory) (n : Nat) :
    countBits m n = ((Finset.range n).filter fun j => m.bit j = true).card := by
  simp only [← Nat.count_eq_card_filter_range, Nat.count, countBits, Bool.decide_eq_true]

/-- Settles O37: the count is the cardinality, and at most `M`, so it fits the register. -/
theorem popcntCountsTheFilterBits : Obligations.PopcntCountsTheFilterBits := by
  intro s hlo hhi
  have hle : ((Finset.range s.m.toNat).filter fun j => s.bits.bit j = true).card ≤ s.m.toNat :=
    (Finset.card_filter_le _ _).trans_eq (Finset.card_range _)
  have hrun := exec_popcnt_ok s ((mOK_iff s).2 ⟨hlo, hhi⟩)
  rw [countBits_eq_card] at hrun
  have hfit := (BitVec.toNat_ofNat _ 64).trans (Nat.mod_eq_of_lt (hle.trans_lt s.m.isLt))
  exact ⟨_, hrun, rfl, hfit, hfit.trans_le hle⟩

/-! ### What a step does to the bits (R233) -/

theorem HostOnly.bits {s u : State} (h : HostOnly s u) : u.bits = s.bits := by
  obtain ⟨_, _, _, rfl⟩ := h
  rfl

theorem hashCommand_bits (shape : Shape) (s : State) : (hashCommand shape s).bits = s.bits := by
  rcases hashCommand_cases shape s with ⟨-, e⟩ | ⟨-, d, -, e⟩ <;> rw [e] <;> rfl

theorem exec_popcnt_bits {s t : State} (h : exec .popcnt s = .next t) : t.bits = s.bits := by
  cases hm : mOK s
  · cases (exec_popcnt_bad s hm).symm.trans h
    rfl
  · cases (exec_popcnt_ok s hm).symm.trans h
    rfl

/-- `INDEX`, `ADD` and `TEST`: only an `ADD` whose generation succeeds changes bits. -/
theorem filterCommand_bits {i : Instr} {shape : Shape} (hi : (i, shape) ∈ filterCommands) (s : State) :
    (filterCommand shape (onOkOf i) s).bits = s.bits ∨
      (i, shape) ∈ addCommands ∧ ∃ d L p, filterCommand shape (onOkOf i) s = okEnd i d L p s := by
  rcases filterCommand_cases shape (onOkOf i) s with ⟨-, e⟩ | ⟨-, d, -, ⟨L, p, -, e⟩ | ⟨p, -, e⟩ | ⟨-, e⟩⟩
  · rw [e]
    exact .inl rfl
  · rcases List.mem_append.1 hi with hi | hi
    · rcases List.mem_append.1 hi with hi | hi
      · rw [e, onOkOf_of_mem_indexCommands hi]
        exact .inl rfl
      · exact .inr ⟨hi, d, L, p, e⟩
    · rw [e, onOkOf_of_mem_testCommands hi]
      exact .inl rfl
  · rw [e]
    exact .inl rfl
  · rw [e]
    exact .inl rfl

/-- Only `CLEAR` and a successful `ADD` change bits. -/
theorem exec_bits {i : Instr} {s t : State} (h : exec i s = .next t) :
    t.bits = s.bits ∨ i = .clear ∨ ∃ shape d L p, (i, shape) ∈ addCommands ∧ t = okEnd i d L p s := by
  cases hg : generatingShape i with
  | some shape =>
    have hi := mem_filterCommands.2 hg
    cases (exec_of_mem_filterCommands hi s).symm.trans h
    rcases filterCommand_bits hi s with e | ⟨ha, d, L, p, e⟩
    · exact .inl e
    · exact .inr (.inr ⟨shape, d, L, p, ha, e⟩)
  | none =>
    cases i
    case nop => cases h; exact .inl rfl
    case hashBytes => cases h; exact .inl (hashCommand_bits .bytes s)
    case hashU32 => cases h; exact .inl (hashCommand_bits .u32 s)
    case hashU64 => cases h; exact .inl (hashCommand_bits .u64 s)
    case clear => exact .inr (.inl rfl)
    case popcnt => exact .inl (exec_popcnt_bits h)
    case abort =>
      cases h
      split <;> exact .inl rfl
    all_goals cases hg

/-- The running command is an `ADD`, which ends and sets the bits of some indices (R236). -/
structure AddEnds (s t : State) : Prop where
  busy : s.status.busy = true
  idle : t.status.busy = false
  command : ∃ i shape, decode s.lastcmd = .ok i ∧ (i, shape) ∈ addCommands
  bits : ∃ L : List Nat, ∀ j, t.bits.bit j = (decide (j ∈ L) || s.bits.bit j)

theorem AddEnds.of_hostOnly {s u t : State} (hu : HostOnly s u) (h : AddEnds u t) : AddEnds s t := by
  obtain ⟨_, _, _, rfl⟩ := hu
  exact ⟨h.busy, h.idle, h.command, h.bits⟩

theorem completionStep_bits {s t : State} (hb : s.status.busy = true) (hc : decode s.lastcmd ≠ .ok .clear)
    (h : completionStep s = .next t) : t.bits = s.bits ∨ AddEnds s t := by
  cases hd : decode s.lastcmd with
  | error e =>
    cases (completionStep_illegal hd).symm.trans h
    exact .inl rfl
  | ok i =>
    by_cases hi : i = .abort
    · subst hi
      cases (completionStep_abort hd).symm.trans h
      exact .inl rfl
    · rw [completionStep_exec hd hi] at h
      rcases exec_bits h with e | rfl | ⟨shape, d, L, p, ha, rfl⟩
      · exact .inl e
      · exact absurd hd hc
      · exact .inr ⟨hb, rfl, ⟨i, shape, hd, ha⟩, L, okEnd_bit_of_mem_addCommands ha d L p s⟩

theorem engineStep_bits {s t : State} {b : Bool} (hc : s.status.busy = true → decode s.lastcmd ≠ .ok .clear)
    (h : engineStep b s = .next t) : t.bits = s.bits ∨ AddEnds s t := by
  rcases engineStep_cases b s with ⟨-, e⟩ | ⟨hb, e⟩ | ⟨-, -, i, shape, d, -, -, -, -, e⟩
  · cases e.symm.trans h
    exact .inl rfl
  · exact completionStep_bits hb (hc hb) (e.symm.trans h)
  · cases e.symm.trans h
    exact .inl rfl

theorem memRead_bits (a : Addr) (s : State) : (memRead a s).bits = s.bits := by
  rcases memRead_cases a s with hu | ⟨-, u, hu, e⟩
  · exact hu.bits
  · rw [e]
    exact hu.bits

theorem writeCmd_bits {s t : State} {v : Word} (h : writeCmd v s = .next t) : t.bits = s.bits := by
  rcases writeCmd_cases v s with ⟨-, e⟩ | ⟨-, -, e⟩ | ⟨-, -, e⟩ <;> cases e.symm.trans h
  · split <;> rfl
  · rfl
  · rfl

/-- A host write below the bit-array window stores no bit. -/
theorem memWrite_bits {s t : State} {a : Addr} {v : Word} (ha : a.toNat < bitsBase) (h : memWrite a v s = .next t) :
    t.bits = s.bits := by
  rcases memWrite_cases a v s with ⟨-, e⟩ | e | ⟨-, e⟩ | ⟨-, e⟩ | ⟨-, e⟩ | ⟨-, e⟩ | ⟨-, r, -, -, e⟩ | ⟨-, _, -, e⟩ | ⟨-, hwin, -⟩
  · cases e.symm.trans h
    rfl
  · cases e.symm.trans h
    rfl
  · cases e.symm.trans h
    rfl
  · exact writeCmd_bits (e.symm.trans h)
  · cases e.symm.trans h
    rfl
  · cases e.symm.trans h
    rfl
  · cases e.symm.trans h
    exact storeIn_bits r v s
  · cases e.symm.trans h
    rfl
  · exact absurd ha hwin.not_gt

theorem quiet_not_clear {s : State} (hq : s.quiet = true) (hb : s.status.busy = true) : decode s.lastcmd ≠ .ok .clear := by
  intro hd
  simp [State.quiet, hb, ← encode_eq_of_decode_eq_ok hd] at hq

theorem quiet_sparesBits {s : State} {m : Turn} {rest : List Turn} (hq : s.quiet = true) (hs : s.agenda = m :: rest) :
    m.sparesBits = true := by
  simp only [State.quiet, hs, Bool.and_eq_true] at hq
  exact hq.2

/-- A quiet step leaves the bits alone or ends an `ADD`. -/
theorem step_bits {s t : State} (hq : s.quiet = true) (h : step s = .next t) : t.bits = s.bits ∨ AddEnds s t := by
  have hc : s.status.busy = true → decode s.lastcmd ≠ .ok .clear := quiet_not_clear hq
  cases hs : s.agenda with
  | nil =>
    rw [step_nil hs] at h
    cases hb : s.status.busy with
    | false =>
      cases (runAlone_idle hb).symm.trans h
      exact .inl rfl
    | true =>
      rw [runAlone_busy hb] at h
      exact (engineStep_bits (by exact hc) h).imp_right (.of_hostOnly ⟨s.rdata, 1, s.agenda, rfl⟩)
  | cons m rest =>
    have hm := quiet_sparesBits hq hs
    rw [step_cons hs] at h
    cases m with
    | read a =>
      cases h
      exact .inl (memRead_bits a _)
    | write a v => exact .inl (memWrite_bits (s := { s with agenda := rest }) (of_decide_eq_true hm) h)
    | wait =>
      cases h
      exact .inl (hostOnly_pollStatus _).bits
    | engine b =>
      exact (engineStep_bits (by exact hc) h).imp_right (.of_hostOnly (hostOnly_agenda s rest))
    | reset => cases hm

/-- No quiet step clears a bit. -/
theorem step_keeps_set_bits {s t : State} (hq : s.quiet = true) (h : step s = .next t) {j : Nat} (hj : s.bits.bit j = true) :
    t.bits.bit j = true := by
  rcases step_bits hq h with e | ⟨-, -, -, L, hbits⟩
  · rw [e, hj]
  · rw [hbits, hj, Bool.or_true]

/-- Settles O33: a quiet step either leaves the bits alone or ends an `ADD`, which sets bits. -/
theorem onlyAddChangesBitsAndOnlyUpward : Obligations.OnlyAddChangesBitsAndOnlyUpward := by
  intro s t hq h
  refine ⟨fun j hj => step_keeps_set_bits hq h hj, fun hne => ?_⟩
  have hadd := (step_bits hq h).resolve_left hne
  exact ⟨hadd.busy, hadd.idle, hadd.command⟩

/-! ### No false negatives (R238) -/

theorem QuietRun.keeps_set_bits {s u : State} (h : QuietRun s u) {j : Nat} (hj : s.bits.bit j = true) : u.bits.bit j = true := by
  induction h with
  | refl => exact hj
  | step hq hstep _ ih => exact ih (step_keeps_set_bits hq hstep hj)

/-- Settles O34: the `TEST` has the indices of the `ADD`, whose bits the run keeps. -/
theorem noFalseNegatives : Obligations.NoFalseNegatives := by
  intro i i' shape shape' s t u v hi hi' hs he ht hrun hu hkey hk hm he' hv
  obtain ⟨d, L, p, rfl, rfl, -⟩ := exec_endedOK_agree (mem_filterCommands_of_mem_addCommands hi)
    (mem_filterCommands_of_mem_testCommands hi') hs hu hkey hk hm he he' ht hv
  have hset : ∀ c ∈ L, u.bits.bit c = true := by
    intro c hc
    refine hrun.keeps_set_bits ?_
    rw [okEnd_bit_of_mem_addCommands hi, decide_eq_true hc, Bool.true_or]
  rw [okEnd_of_mem_testCommands hi']
  exact testIndices_result_one hset

/-! ### Export and restore (R121, R243) -/

theorem Memory.bit_eq_getLsbD_word (m : Memory) (j : Nat) : m.bit j = (m.word (j / 64)).getLsbD (j % 64) := by
  rw [getLsbD_word_eq_bit _ _ _ (Nat.mod_lt _ (by omega)), Nat.div_add_mod]

theorem toNat_windowAddr_bits {w : Nat} (hw : w < 2 ^ 28) : (windowAddr 0x80000000 w).toNat = 0x80000000 + 8 * w := by
  rw [windowAddr, BitVec.toNat_ofNat]
  omega

/-- Word `w` of an idle block's window as the host reads it (R80). -/
theorem rdata_of_rdBits {s r : State} {w : Nat} {rest : List Turn} (hcap : s.cfg.bitcap ≤ 17179869184)
    (hw : w < s.cfg.bitcap / 64) (hb : s.status.busy = false) (hs : s.agenda = rdBits w :: rest) (h : step s = .next r) :
    r.rdata = s.bits.word w &&& validMask (visibleBits s) w := by
  have ha := toNat_windowAddr_bits (w := w) (by omega)
  cases (step_read_region hs (by omega) (locate_bits hw ha) (by simp [hb])).symm.trans h
  rfl

/-- A window word written to an idle block, all of whose bits are visible (R80). -/
theorem step_wrBits {s : State} {w : Nat} {v : Word} {rest : List Turn} (hcap : s.cfg.bitcap ≤ 17179869184)
    (hw : w < s.cfg.bitcap / 64) (hb : s.status.busy = false) (hs : s.agenda = wrBits w v :: rest)
    (hv : v &&& validMask (visibleBits s) w = v) :
    step s = .next { s with agenda := rest, bits := s.bits.setWord w v } := by
  have ha := toNat_windowAddr_bits (w := w) (by omega)
  rw [step_write_region hs (by omega) (locate_bits hw ha), writeRegion_bits_idle w v (by exact hb)]
  exact congrArg (fun x => Host.Outcome.next { s with agenda := rest, bits := s.bits.setWord w x }) hv

theorem run_succ_of_step {s t : State} (h : step s = .next t) (n : Nat) :
    Host.Core.run Sys2Proof.core (n + 1) s = Host.Core.run Sys2Proof.core n t := by
  have hcore : Sys2Proof.core.step s = .next t := h
  simp only [Host.Core.run, hcore]

/-- Visible words written in order to an idle block's window are stored in order. -/
theorem run_writeBitWords {ws : List Word} {d : State} {w : Nat} (hcap : d.cfg.bitcap ≤ 17179869184)
    (hw : w + ws.length ≤ d.cfg.bitcap / 64) (hb : d.status.busy = false)
    (hv : ∀ n < ws.length, ws.getD n 0#64 &&& validMask (visibleBits d) (w + n) = ws.getD n 0#64) :
    Host.Core.run Sys2Proof.core ws.length { d with agenda := writeBitWords w ws } =
      .next { d with agenda := [], bits := storeIndices d.bits w (ws.map BitVec.toNat) } := by
  induction ws generalizing d w with
  | nil => rfl
  | cons v r ih =>
    rw [List.length_cons] at hw hv
    have hstep : step { d with agenda := writeBitWords w (v :: r) } =
        .next { d with agenda := writeBitWords (w + 1) r, bits := d.bits.setWord w v } :=
      step_wrBits hcap (by simp only; omega) hb rfl (hv 0 (by omega))
    have hrest := ih (d := { d with bits := d.bits.setWord w v }) (w := w + 1) hcap (by simp only; omega) hb fun n hn => by
      rw [Nat.add_right_comm]
      exact hv (n + 1) (by omega)
    -- a word stored as the number it stands for is the word
    have hstore : storeIndices d.bits w ((v :: r).map BitVec.toNat) =
        storeIndices (d.bits.setWord w v) (w + 1) (r.map BitVec.toNat) := by
      rw [List.map_cons, storeIndices, BitVec.ofNat_toNat, BitVec.setWidth_eq]
    rw [hstore]
    exact (run_succ_of_step hstep r.length).trans hrest

/-- The words of an idle block's window, read in order and written back in order, give the bits below `M`. -/
theorem bit_storeIndices_of_exported {m n : Memory} {L j : Nat} {ws : List Word} (hj : j < L) (hlen : L ≤ 64 * ws.length)
    (hws : ∀ w < ws.length, ws.getD w 0#64 = m.word w &&& validMask L w) :
    (storeIndices n 0 (ws.map BitVec.toNat)).bit j = m.bit j := by
  have hw : j / 64 < ws.length := by omega
  have hstored : (storeIndices n 0 (ws.map BitVec.toNat)).word (j / 64) = m.word (j / 64) &&& validMask L (j / 64) := by
    rw [word_storeIndices_zero n (List.length_map _), if_pos hw, ← hws _ hw]
    simp [hw]
  rw [Memory.bit_eq_getLsbD_word, hstored, getLsbD_and_validMask _ _ _ (Nat.mod_lt _ (by omega)), Nat.div_add_mod,
    decide_eq_true hj, Bool.and_true, ← Memory.bit_eq_getLsbD_word]

/-- `TEST`s of the same key on bits that agree below `M` give the same `RESULT`, if both end without error. -/
theorem test_results_agree {i : Instr} {shape : Shape} {x y x' y' : State} (hi : (i, shape) ∈ testCommands) (hx : x.Running)
    (hy : y.Running) (hbits : ∀ j < x.m.toNat, y.bits.bit j = x.bits.bit j) (hm : x.m = y.m) (hk : x.k = y.k)
    (hkey : SameKey shape x shape y) (he : exec i x = .next x') (he' : exec i y = .next y') (hx' : x'.EndedOK)
    (hy' : y'.EndedOK) : x'.result = y'.result := by
  have hf := mem_filterCommands_of_mem_testCommands hi
  obtain ⟨d, L, p, rfl, rfl, -, hlt⟩ := exec_endedOK_agree hf hf hx hy hkey hk hm he he' hx' hy'
  rw [okEnd_of_mem_testCommands hi, okEnd_of_mem_testCommands hi]
  exact testIndices_result_congr fun c hc => (hbits c (hlt c hc)).symm

/-- Settles O38: the words read are the visible words of `s`, and writing them stores them as they are. -/
theorem exportedWordsRestoreTheFilter : Obligations.ExportedWordsRestoreTheFilter := by
  intro s d ws hlegal hcfg hm _ hhi hsb hdb hlen hread
  obtain ⟨-, -, hcap64, -, hcap⟩ := (Config.legal_iff s.cfg).1 hlegal
  have hvis : visibleBits s = s.m.toNat := min_eq_left hhi
  have hvis' : visibleBits d = s.m.toNat := by rw [visibleBits, hcfg, hm, min_eq_left hhi]
  have hws : ∀ w < ws.length, ws.getD w 0#64 = s.bits.word w &&& validMask s.m.toNat w := fun w hw => by
    obtain ⟨r, hr, hrdata⟩ := hread w hw
    rw [← hrdata, ← hvis]
    exact rdata_of_rdBits (s := { s with agenda := [rdBits w] }) hcap (by simp only; omega) hsb rfl hr
  have hrun := run_writeBitWords (ws := ws) (d := d) (w := 0) (by rw [hcfg]; exact hcap) (by rw [hcfg]; omega) hdb
    fun w hw => by rw [hvis', Nat.zero_add, hws w hw, BitVec.and_assoc, BitVec.and_self]
  have hbits : ∀ j < s.m.toNat, (storeIndices d.bits 0 (ws.map BitVec.toNat)).bit j = s.bits.bit j :=
    fun j hj => bit_storeIndices_of_exported hj (by omega) hws
  refine ⟨_, hrun, rfl, hbits, ?_⟩
  intro i shape x y x' y' hi hx hy hxb hyb hxm hym hk hkey he he' hx' hy'
  refine test_results_agree hi hx hy (fun j hj => ?_) (hxm.trans hym.symm) hk hkey he he' hx' hy'
  rw [hxb, hyb]
  exact hbits j (hxm ▸ hj)

end Sys2Proof.Machine
end

section
/-! PROOFS of the statements about errors and the interrupt output (60_exceptions.md): what each way a command can end leaves
unchanged, when it raises an error, what a requested abort admits, and that no step stops.

One inversion lemma, `execEffect_of_exec`, says what a command can do; the statements about every command are case analyses
of it. -/

namespace Sys2Proof.Machine

open Sys2Proof.Claims

/-! ### The operands that R264 tabulates -/

theorem badOperands_of_mem_hashCommands {i : Instr} {shape : Shape} (hi : (i, shape) ∈ hashCommands) (s : State) :
    BadOperands i s ↔ keylenOK shape s = false := by
  have e : ∀ c ∈ hashCommands, BadOperands c.1 s ↔ keylenOK c.2 s = false := by simp [hashCommands, BadOperands, keylenOK]
  exact e _ hi

/-- Of the operands, the shape decides only whether `KEYLEN` is checked. -/
theorem badOperands_of_mem_filterCommands {i : Instr} {shape : Shape} (hi : (i, shape) ∈ filterCommands) (s : State) :
    BadOperands i s ↔ filterOK shape s = false := by
  rw [← Bool.not_eq_true, filterOK_iff]
  rw [mem_filterCommands] at hi
  cases i <;> cases hi
  all_goals
    simp only [BadOperands, reduceCtorEq, false_implies, true_implies, and_true]
    omega

theorem badOperands_popcnt (s : State) : BadOperands .popcnt s ↔ mOK s = false := by
  rw [← Bool.not_eq_true, mOK_iff]
  simp only [BadOperands]
  omega

/-! ### Everything a command can do -/

/-- How `exec i s` can answer. -/
inductive ExecEffect (s : State) : Instr → State → Prop where
  /-- An operand is out of range (R264). -/
  | invalid {i : Instr} (h : BadOperands i s) : ExecEffect s i (raise .invalidParameter s)
  | nop : ExecEffect s .nop (complete s)
  | abort : ExecEffect s .abort { s with abortReq := s.status.busy || s.abortReq }
  | clear : ExecEffect s .clear (complete { s with bits := Memory.zeroed })
  | popcnt (h : mOK s = true) :
      ExecEffect s .popcnt (complete { s with result := BitVec.ofNat 64 (countBits s.bits s.m.toNat) })
  | hash {i : Instr} {shape : Shape} {d : Word × Word} (hi : (i, shape) ∈ hashCommands) (h : keylenOK shape s = true)
      (hd : digest shape s = d) : ExecEffect s i (complete (writeDigest d s))
  /-- The generation answers `OK` (R207, R232). -/
  | found {i : Instr} {shape : Shape} {d : Word × Word} {L : List Nat} {p : Word} (hi : (i, shape) ∈ filterCommands)
      (h : filterOK shape s = true) (hd : digest shape s = d) (hg : generation shape s = .ok L p) :
      ExecEffect s i (okEnd i d L p s)
  /-- The generation answers `EXHAUSTED` (R265). -/
  | exhausted {i : Instr} {shape : Shape} {d : Word × Word} {p : Word} (hi : (i, shape) ∈ filterCommands)
      (h : filterOK shape s = true) (hd : digest shape s = d) (hg : generation shape s = .exhausted p) :
      ExecEffect s i (raise .hashExhausted (writeExhausted p (writeDigest d s)))
  /-- The generation never ends (R205). -/
  | never {i : Instr} {shape : Shape} (hi : (i, shape) ∈ filterCommands) (h : filterOK shape s = true)
      (hg : generation shape s = .never) : ExecEffect s i s

theorem execEffect_of_mem_hashCommands {i : Instr} {shape : Shape} (hi : (i, shape) ∈ hashCommands) (s : State) :
    ExecEffect s i (hashCommand shape s) := by
  rcases hashCommand_cases shape s with ⟨h, e⟩ | ⟨h, d, hd, e⟩ <;> rw [e]
  · exact .invalid ((badOperands_of_mem_hashCommands hi s).2 h)
  · exact .hash hi h hd

theorem execEffect_of_mem_filterCommands {i : Instr} {shape : Shape} (hi : (i, shape) ∈ filterCommands) (s : State) :
    ExecEffect s i (filterCommand shape (onOkOf i) s) := by
  rcases filterCommand_cases shape (onOkOf i) s with ⟨h, e⟩ | ⟨h, d, hd, ⟨L, p, hg, e⟩ | ⟨p, hg, e⟩ | ⟨hg, e⟩⟩ <;> rw [e]
  · exact .invalid ((badOperands_of_mem_filterCommands hi s).2 h)
  · exact .found hi h hd hg
  · exact .exhausted hi h hd hg
  · exact .never hi h hg

/-- A request made before stands (R139, R140). -/
theorem exec_abort_eq (s : State) : exec .abort s = .next { s with abortReq := s.status.busy || s.abortReq } := by
  cases hb : s.status.busy
  · rw [exec_abort_idle hb, Bool.false_or]
  · rw [exec_abort_busy hb, Bool.true_or]

/-- The inversion lemma of the commands. -/
theorem execEffect_of_exec {i : Instr} {s t : State} (h : exec i s = .next t) : ExecEffect s i t := by
  cases hg : generatingShape i with
  | some shape =>
    have hi := mem_filterCommands.2 hg
    cases (exec_of_mem_filterCommands hi s).symm.trans h
    exact execEffect_of_mem_filterCommands hi s
  | none =>
    cases i
    case nop => cases h; exact .nop
    case hashBytes => cases h; exact execEffect_of_mem_hashCommands (by decide) s
    case hashU32 => cases h; exact execEffect_of_mem_hashCommands (by decide) s
    case hashU64 => cases h; exact execEffect_of_mem_hashCommands (by decide) s
    case clear => cases h; exact .clear
    case popcnt =>
      cases hm : mOK s
      · cases (exec_popcnt_bad s hm).symm.trans h
        exact .invalid ((badOperands_popcnt s).2 hm)
      · cases (exec_popcnt_ok s hm).symm.trans h
        exact .popcnt hm
    case abort =>
      cases (exec_abort_eq s).symm.trans h
      exact .abort
    all_goals cases hg

/-! ### `InvalidParameter` (R264) -/

/-- A start clears `ERRCODE` (R131), and only the check of the operands puts code 1 there. -/
theorem ExecEffect.invalid_or_other_code {i : Instr} {s t : State} (hs : s.Running) (h : ExecEffect s i t) :
    (BadOperands i s ∧ t = raise .invalidParameter s) ∨ (¬ BadOperands i s ∧ t.status.errcode ≠ 1#8) := by
  have hcode : s.status.errcode ≠ 1#8 := by rw [hs.noCode]; decide
  cases h with
  | invalid hb => exact .inl ⟨hb, rfl⟩
  | nop => exact .inr ⟨id, hcode⟩
  | abort => exact .inr ⟨id, hcode⟩
  | clear => exact .inr ⟨id, hcode⟩
  | popcnt hm => exact .inr ⟨by simp [badOperands_popcnt, hm], hcode⟩
  | hash hi hk _ => exact .inr ⟨by simp [badOperands_of_mem_hashCommands hi, hk], hcode⟩
  | found hi hf _ _ =>
    refine .inr ⟨by simp [badOperands_of_mem_filterCommands hi, hf], ?_⟩
    rw [okEnd, complete_status, onOkOf_status]
    exact hcode
  | exhausted hi hf _ _ =>
    exact .inr ⟨by simp [badOperands_of_mem_filterCommands hi, hf], (by decide : Error.hashExhausted.code ≠ 1#8)⟩
  | never hi hf _ => exact .inr ⟨by simp [badOperands_of_mem_filterCommands hi, hf], hcode⟩

/-- Settles O14: the command raises `InvalidParameter` or leaves another code, by its operands. -/
theorem invalidParameterExactlyAsTabulated : Obligations.InvalidParameterExactlyAsTabulated := by
  intro i s hs
  obtain ⟨t, ht⟩ := exec_answers i s
  refine ⟨t, ht, ?_⟩
  rcases (execEffect_of_exec ht).invalid_or_other_code hs with ⟨hb, rfl⟩ | ⟨hb, hcode⟩
  · exact ⟨iff_of_true rfl hb, fun _ => rfl⟩
  · exact ⟨iff_of_false hcode hb, fun h => absurd h hb⟩

/-! ### What a command leaves unchanged (R109, R268) -/

theorem exists_onOkOf_eq (i : Instr) (L : List Nat) (s : State) :
    ∃ bits result, onOkOf i L s = { s with bits := bits, result := result } := by
  cases i <;> exact ⟨_, _, rfl⟩

theorem hostFrame_okEnd (i : Instr) (d : Word × Word) (L : List Nat) (p : Word) (s : State) :
    HostFrame s (okEnd i d L p s) := by
  obtain ⟨bits, result, e⟩ := exists_onOkOf_eq i L (writeIndices L p (writeDigest d s))
  rw [okEnd, e]
  constructor <;> rfl

theorem ExecEffect.hostFrame {i : Instr} {s t : State} (h : ExecEffect s i t) : HostFrame s t := by
  cases h with
  | found _ _ _ _ => exact hostFrame_okEnd _ _ _ _ _
  | _ => constructor <;> rfl

theorem ExecEffect.digest_unchanged {i : Instr} {s t : State} (h : ExecEffect s i t)
    (hi : ∀ shape, (i, shape) ∉ hashCommands ++ filterCommands) : t.h1 = s.h1 ∧ t.h2 = s.h2 := by
  cases h with
  | hash hm _ _ => exact absurd (List.mem_append_left _ hm) (hi _)
  | found hm _ _ _ => exact absurd (List.mem_append_right _ hm) (hi _)
  | exhausted hm _ _ _ => exact absurd (List.mem_append_right _ hm) (hi _)
  | _ => exact ⟨rfl, rfl⟩

theorem ExecEffect.indices_unchanged {i : Instr} {s t : State} (h : ExecEffect s i t)
    (hi : ∀ shape, (i, shape) ∉ filterCommands) : t.probes = s.probes ∧ t.idx = s.idx := by
  cases h with
  | found hm _ _ _ => exact absurd hm (hi _)
  | exhausted hm _ _ _ => exact absurd hm (hi _)
  | _ => exact ⟨rfl, rfl⟩

/-- Free values stored in the first `k` entries leave the others (R265, R266). -/
theorem word_scrambleIndices_ge (m : Memory) (d : Nat) {k j : Nat} (hj : k ≤ j) :
    (scrambleIndices m d k).word j = m.word j := by
  rw [word_scrambleIndices, if_neg hj.not_gt]

theorem ExecEffect.idx_word_unchanged {i : Instr} {s t : State} (h : ExecEffect s i t) {j : Nat} (hj : s.k.toNat ≤ j) :
    t.idx.word j = s.idx.word j := by
  cases h with
  | found _ hf _ hg =>
    obtain ⟨hlen, -⟩ := generation_ok_bounds hf hg
    rw [okEnd_idx, word_storeIndices_zero _ hlen, if_neg hj.not_gt]
  | exhausted _ _ _ _ => exact word_scrambleIndices_ge _ _ hj
  | _ => rfl

theorem onOkOf_result {i : Instr} {shape : Shape} (hi : (i, shape) ∉ testCommands) (hf : (i, shape) ∈ filterCommands)
    (L : List Nat) (s : State) : (onOkOf i L s).result = s.result := by
  rcases List.mem_append.1 hf with hf | hf
  · rcases List.mem_append.1 hf with hf | hf
    · rw [onOkOf_of_mem_indexCommands hf]
      rfl
    · rw [onOkOf_of_mem_addCommands hf]
      rfl
  · exact absurd hf hi

theorem ExecEffect.result_unchanged {i : Instr} {s t : State} (h : ExecEffect s i t)
    (hi : ∀ shape, (i, shape) ∉ testCommands) (hp : i ≠ .popcnt) : t.result = s.result := by
  cases h with
  | popcnt _ => exact absurd rfl hp
  | found hf _ _ _ => exact onOkOf_result (hi _) hf _ _
  | _ => rfl

/-- Settles O15: each way a command can end leaves what the statement lists. -/
theorem commandsWriteOnlyTheirOutputs : Obligations.CommandsWriteOnlyTheirOutputs := by
  intro i s t h
  have he := execEffect_of_exec h
  refine ⟨he.hostFrame, he.digest_unchanged, he.indices_unchanged, fun j hj => he.idx_word_unchanged hj,
    he.result_unchanged, fun hadd hclear => ?_⟩
  rcases exec_bits h with hb | hc | ⟨shape, _, _, _, hi, -⟩
  · exact hb
  · exact absurd hc hclear
  · exact absurd hi (hadd shape)

/-! ### `HashExhausted` (R265) -/

/-- Settles O26: too few distinct candidates within the limit exhaust the generation. -/
theorem exhaustedGenerationEndsWithHashExhausted : Obligations.ExhaustedGenerationEndsWithHashExhausted := by
  intro i shape s B hi hs hkey h0 hfew
  have hg := (generation_of_key hkey).trans (hashes_of_limit h0 hfew)
  obtain ⟨d, hd⟩ : ∃ d, establish s.cfg.tailSignExtend B s.seed = d := ⟨_, rfl⟩
  have hrun : exec i s = .next (raise .hashExhausted (writeExhausted s.plim (writeDigest d s))) := by
    rw [exec_of_mem_filterCommands hi,
      filterCommand_exhausted ((paramsOK_iff shape s).1 hs) ((digest_of_key hkey).trans hd) hg]
  rw [hd]
  exact ⟨_, hrun, ⟨rfl, rfl⟩, by constructor <;> rfl, rfl, rfl, rfl, rfl, rfl, fun _ hj => word_scrambleIndices_ge _ _ hj⟩

/-! ### `Aborted` (R266) -/

section RequestedAbort

variable {s : State} {shape : Shape} {b : Bool}

theorem hangs_iff : hangs shape s = true ↔ generation shape s = .never := by rw [hangs, beq_iff_eq]

theorem engineStep_requested (hb : s.status.busy = true) (ha : s.abortReq = true) (hs : abortableShape s = some shape) :
    engineStep b s = abortOrComplete b shape s := by
  simp only [engineStep, hb, ha, hs, if_true]

/-- The schedule's bit, or a generation that never ends, makes it the abort step. -/
theorem abortOrComplete_abort {d : Word × Word} (h : b = true ∨ generation shape s = .never) (hd : digest shape s = d) :
    abortOrComplete b shape s = .next (raise .aborted (writeAborted (writeDigest d s))) := by
  rw [abortOrComplete, if_pos (Bool.or_eq_true_iff.2 (h.symm.imp_left hangs_iff.2)), abortStep, hd]

theorem abortOrComplete_complete (hg : generation shape s ≠ .never) :
    abortOrComplete false shape s = completionStep s := by
  rw [abortOrComplete, Bool.or_false, if_neg (hangs_iff.not.2 hg)]

end RequestedAbort

/-- Settles O12: the engine's move is the abort step or the completion step, by the bit and by whether the generation ends. -/
theorem requestedAbortAdmitsBothEnds : Obligations.RequestedAbortAdmitsBothEnds := by
  intro s rest b i shape B hag hbusy habort hdec hi hs hkey
  have hf : filterOK shape s = true := (paramsOK_iff shape s).1 hs
  have hstep : step s = abortOrComplete b shape { s with agenda := rest } :=
    (step_cons hag).trans (engineStep_requested hbusy habort (abortableShape_eq_some hdec (mem_filterCommands.1 hi) hf))
  obtain ⟨d, hd⟩ : ∃ d, establish s.cfg.tailSignExtend B s.seed = d := ⟨_, rfl⟩
  have hgen : generation shape { s with agenda := rest } = hashes d.1 d.2 s.k.toNat s.m.toNat s.plim := by
    rw [← hd]
    exact generation_of_key hkey
  rw [hd]
  refine ⟨fun h => ?_, fun h hends => ?_⟩
  · have habt := abortOrComplete_abort (h.imp_right fun hn => hgen.trans (not_not.1 hn)) ((digest_of_key hkey).trans hd)
    exact ⟨_, hstep.trans habt, ⟨rfl, rfl⟩, by constructor <;> rfl, rfl, rfl, rfl, rfl,
      fun _ hj => word_scrambleIndices_ge _ _ hj⟩
  · have hne : i ≠ .abort := by
      rintro rfl
      cases mem_filterCommands.1 hi
    rw [hstep, h, abortOrComplete_complete (hgen.trans_ne hends)]
    exact completionStep_exec hdec hne

/-! ### No trap (R260) -/

theorem writeCmd_answers (v : Word) (s : State) : ∃ t, writeCmd v s = .next t := by
  rcases writeCmd_cases v s with ⟨-, e⟩ | ⟨-, -, e⟩ | ⟨-, -, e⟩ <;> exact ⟨_, e⟩

theorem memWrite_answers (a : Addr) (v : Word) (s : State) : ∃ t, memWrite a v s = .next t := by
  rcases memWrite_cases a v s with ⟨-, e⟩ | e | ⟨-, e⟩ | ⟨-, e⟩ | ⟨-, e⟩ | ⟨-, e⟩ | ⟨-, r, -, -, e⟩ | ⟨-, j, -, e⟩ |
    ⟨-, -, w, -, e⟩
  case inr.inr.inr.inl => rw [e]; exact writeCmd_answers v s
  all_goals exact ⟨_, e⟩

theorem engineStep_answers (b : Bool) (s : State) : ∃ t, engineStep b s = .next t :=
  (engineStep_ends b s).imp fun _ h => h.1

theorem takeTurn_answers (m : Turn) (s : State) : ∃ t, takeTurn m s = .next t := by
  cases m with
  | read a => exact ⟨_, takeTurn_read a s⟩
  | write a v => exact memWrite_answers a v s
  | wait => exact ⟨_, takeTurn_wait s⟩
  | engine b => exact engineStep_answers b s
  | reset => exact ⟨_, takeTurn_reset s⟩

theorem runAlone_answers (s : State) : ∃ t, runAlone s = .next t := by
  cases hb : s.status.busy with
  | false => exact ⟨s, runAlone_idle hb⟩
  | true =>
    rw [runAlone_busy hb]
    exact engineStep_answers _ _

/-- Settles O5: the next move answers a state, and so does the engine alone. -/
theorem everyStepGivesANextState : Obligations.EveryStepGivesANextState := by
  intro s
  cases hs : s.agenda with
  | nil =>
    rw [step_nil hs]
    exact runAlone_answers s
  | cons m rest =>
    rw [step_cons hs]
    exact takeTurn_answers m _

/-! ### `IllegalCommand` (R263) -/

/-- Settles O8: the word starts, since it is not `ABORT`, and the engine's move finds that it does not decode. -/
theorem illegalWordEndsWithIllegalCommand : Obligations.IllegalWordEndsWithIllegalCommand := by
  intro s v b rest hag hidle hbad
  have hv : v ≠ abortWord := by
    rintro rfl
    exact hbad .abort (decode_encode .abort)
  obtain ⟨-, hend⟩ :=
    abortTouchesNoOtherCommand (startCommand v { s with agenda := .engine b :: rest }) rest b rfl rfl
  exact ⟨_, (step_writeCmd hag).trans (writeCmd_idle hv hidle), rfl, rfl, hend hbad⟩

/-! ### The interrupt output (R273) -/

/-- `INTEN` as the host reads it (R40). -/
theorem Inten.getLsbD_toWord (x : Inten) :
    x.toWord.getLsbD 0 = x.doneie ∧ x.toWord.getLsbD 1 = x.errie ∧ x.toWord.getLsbD 2 = x.hosterrie := by
  simp only [toWord, BitVec.getLsbD_append]
  simp

/-- Settles O52: the bits named are the fields that `irq` reads. -/
theorem irqFollowsStatusAndInten : Obligations.IrqFollowsStatusAndInten := by
  intro s
  obtain ⟨-, hdone, herr, hwerr, haerr⟩ := s.status.getLsbD_toWord_flags
  obtain ⟨hdoneie, herrie, hhosterrie⟩ := s.inten.getLsbD_toWord
  rw [hdone, herr, hwerr, haerr, hdoneie, herrie, hhosterrie, irq]

end Sys2Proof.Machine
end

section
/-! PROOFS of the statements about reset (70_reset_and_hazards.md): the registers and the arrays it leaves, from any state, and
the invariant at the machine's start.

`step_reset` resolves the move once: no hypothesis on the engine, so a running command is no case of its own (R291). -/

namespace Sys2Proof.Machine

open Sys2Proof.Claims

theorem step_reset {s : State} {rest : List Turn} (h : s.agenda = .reset :: rest) :
    step s = .next (resetStep { s with agenda := rest }) := by
  rw [step_cons h, takeTurn_reset]

/-! ### The registers (R290) -/

@[simp] theorem Status.toWord_reset : Status.reset.toWord = 0#64 := by decide

@[simp] theorem Inten.toWord_reset : Inten.reset.toWord = 0#64 := by decide

/-- No source is flagged and none is enabled. -/
@[simp] theorem irq_resetStep (s : State) : irq (resetStep s) = false := rfl

/-- Settles O57: `resetStep` keeps of the state before it only the parameters and what is the host's. -/
theorem resetPutsRegistersAtTheirResetValues : Obligations.ResetPutsRegistersAtTheirResetValues := by
  intro s rest h
  refine ⟨_, step_reset h, Status.toWord_reset, Inten.toWord_reset, irq_resetStep _, ?_⟩
  simp

/-! ### The arrays (R292) -/

/-- With no byte listed, an array holds its fill. -/
@[simp] theorem Memory.byte_empty (f : Fill) (a : Nat) : ({ fill := f, cells := [] } : Memory).byte a = f.byte a := rfl

/-- Where no bit is visible, the mask hides the whole word (R80). -/
@[simp] theorem validMask_zero (w : Nat) : validMask 0 w = 0#64 := by simp [validMask]

@[simp] theorem visibleBits_resetStep (s : State) : visibleBits (resetStep s) = 0 := Nat.zero_min _

/-- Whatever the bits are, the window shows none of them while `M = 0` (R80, R292). -/
theorem readRegion_bits_resetStep (s : State) (w : Nat) : readRegion (.bits w) (resetStep s) = 0#64 := by
  simp [readRegion]

/-- Settles O58: the three arrays are empty over three new draws, and the window is masked by `M = 0`. -/
theorem resetLeavesTheArraysFree : Obligations.ResetLeavesTheArraysFree := by
  intro s rest h
  refine ⟨_, step_reset h, fun a => ?_, fun a => ?_, fun a => ?_, resetStep_draws _, readRegion_bits_resetStep _⟩
  · rw [resetStep_idx, Memory.byte_empty, Fill.byte]
  · rw [resetStep_keybuf, Memory.byte_empty, Fill.byte]
  · rw [resetStep_bits, Memory.byte_empty, Fill.byte]

/-! ### The invariant at the start (R290, R293) -/

/-- Settles O59: the reference configuration is legal, the block is idle without a flag, and the arrays are empty over draws 0
to 2, which come before draw 3. -/
theorem resetStateMeetsTheInvariant : Obligations.ResetStateMeetsTheInvariant :=
  show State.reset.Inv from
  { cfgLegal := by decide
    idxWf := Memory.wf_empty _ _
    keybufWf := Memory.wf_empty _ _
    bitsWf := Memory.wf_empty _ _
    busyNotDone := nofun
    busyNoErr := nofun
    busyNoCode := nofun
    codeRange := Nat.zero_le 4
    errHasCode := nofun
    abortBusy := nofun
    lastNotAbort := by decide
    resultBound := Nat.zero_le _
    idxDrawn := rfl
    keybufDrawn := rfl
    bitsDrawn := rfl }

end Sys2Proof.Machine
end
